-- ==== Sys2Proof/Word.lean ====
section
/-! DEFINITION. The word types of the machine (10_state.md R13, R16; 30_encoding.md R54, R56). -/

namespace Sys2Proof

/-- A byte: a register, a timer or a cell of memory (R13, R21, R36). -/
abbrev Byte := BitVec 8

/-- A 16-bit quantity: an instruction word, the program counter, the index register (R16, R20, R54). -/
abbrev Word := BitVec 16

/-- A 12-bit address immediate, the field NNN (R56). -/
abbrev Addr12 := BitVec 12

/-- One of the four nibbles of an instruction word (R54). -/
abbrev Nibble := BitVec 4

/-- The number of a general register, 0 to 15 (R13, R56). -/
abbrev Reg := Fin 16

end Sys2Proof
end

