-- ==== Sys2Proof/Machine/Flags.lean ====
section
/-! DEFINITION. The values that x[15] takes as a flag (10_state.md R19; 42_load_and_alu.md R109 to R115). Each is computed
from the exact integer result before it is reduced (R100). -/

namespace Sys2Proof.Machine

/-- The flag register, x[15] (R14, R19). -/
abbrev flagReg : Reg := 15

/-- A flag that is 1 or 0. -/
def flagOf (b : Bool) : Byte := if b then 1 else 0

/-- Carry of `8xy4`: 1 if the unwrapped sum exceeds 255 (R109, R111). -/
def carryFlag (a b : Byte) : Byte := flagOf (a.toNat + b.toNat > 255)

/-- Borrow of `8xy5`: 1 if the exact difference of the unsigned operands is negative (R111, R113; reading I1 of
90_conflicts.md C2, log 14). -/
def borrowFlag (a b : Byte) : Byte := flagOf ((a.toNat : Int) - (b.toNat : Int) < 0)

/-- The bit `8xy6` shifts out: `x[X] AND 0x01` (R114). -/
def lowBitFlag (a : Byte) : Byte := a &&& 0x01#8

/-- The bit `8xyE` shifts out, raw and not normalised: `x[X] AND 0x80` (R115, U3). -/
def highBitFlag (a : Byte) : Byte := a &&& 0x80#8

end Sys2Proof.Machine
end

