-- ==== Sys2Proof/Syntax.lean ====
section
/-! DEFINITION. The instructions: one constructor for each row of opcode_table.json (30_encoding.md R60, R69). -/

namespace Sys2Proof

/-- The closed instruction set of R60. An operand is a register number (`Fin 16`) or an immediate field at its own
width (R56, R57); the docstring gives the pattern and its rule. -/
inductive Instr where
  /-- `00E0` CLS (R134). -/
  | cls
  /-- `00EE` RET (R75). -/
  | ret
  /-- `0nnn` SYS addr, every word with first nibble 0 but 00E0 and 00EE (R74). -/
  | sys (nnn : Addr12)
  /-- `1nnn` JP addr (R76). -/
  | jp (nnn : Addr12)
  /-- `2nnn` CALL addr (R77). -/
  | call (nnn : Addr12)
  /-- `3xnn` SE Vx, byte (R83). -/
  | seImm (x : Reg) (nn : Byte)
  /-- `4xnn` SNE Vx, byte (R84). -/
  | sneImm (x : Reg) (nn : Byte)
  /-- `5xy0` SE Vx, Vy (R85). -/
  | seReg (x y : Reg)
  /-- `6xnn` LD Vx, byte (R102). -/
  | ldImm (x : Reg) (nn : Byte)
  /-- `7xnn` ADD Vx, byte (R103). -/
  | addImm (x : Reg) (nn : Byte)
  /-- `8xy0` LD Vx, Vy (R104). -/
  | ldReg (x y : Reg)
  /-- `8xy1` OR Vx, Vy (R105). -/
  | orReg (x y : Reg)
  /-- `8xy2` AND Vx, Vy (R106). -/
  | andReg (x y : Reg)
  /-- `8xy3` XOR Vx, Vy (R107). -/
  | xorReg (x y : Reg)
  /-- `8xy4` ADD Vx, Vy (R109). -/
  | addReg (x y : Reg)
  /-- `8xy5` SUB Vx, Vy (R113). -/
  | subReg (x y : Reg)
  /-- `8xy6` SHR Vx (R114). The Y nibble is kept so that no bit of the word is dropped; it has no effect (R64; log 30). -/
  | shr (x : Reg) (ignored : Nibble)
  /-- `8xyE` SHL Vx (R115). The Y nibble is kept, and has no effect, as in `shr` (R64; log 30). -/
  | shl (x : Reg) (ignored : Nibble)
  /-- `9xy0` SNE Vx, Vy (R86). -/
  | sneReg (x y : Reg)
  /-- `Annn` LD I, addr (R121). -/
  | ldI (nnn : Addr12)
  /-- `Bnnn` JP V0, addr (R78). -/
  | jpV0 (nnn : Addr12)
  /-- `Cxnn` RND Vx, byte (R116). -/
  | rnd (x : Reg) (nn : Byte)
  /-- `Dxyn` DRW Vx, Vy, nibble (R135). -/
  | drw (x y : Reg) (n : Nibble)
  /-- `Ex9E` SKP Vx (R87). -/
  | skp (x : Reg)
  /-- `ExA1` SKNP Vx (R88). -/
  | sknp (x : Reg)
  /-- `Fx07` LD Vx, DT (R144). -/
  | ldVxDt (x : Reg)
  /-- `Fx15` LD DT, Vx (R145). -/
  | ldDtVx (x : Reg)
  /-- `Fx18` LD ST, Vx (R147). -/
  | ldStVx (x : Reg)
  /-- `Fx1E` ADD I, Vx (R122). -/
  | addI (x : Reg)
  /-- `Fn29` LD F, digit: the nibble is a digit, not a register number (R127). -/
  | ldF (digit : Nibble)
  /-- `Fx33` LD B, Vx (R128). -/
  | ldB (x : Reg)
  /-- `Fx55` LD [I], Vx (R129). -/
  | stRegs (x : Reg)
  /-- `Fx65` LD Vx, [I] (R130). -/
  | ldRegs (x : Reg)
  deriving DecidableEq, Repr

end Sys2Proof
end

