-- ==== Sys2Proof/WellFormed.lean ====
section
/-! DEFINITION. Which terms of `Instr` are instructions of the machine. Every field is bounded by its type; the one
check left is R59's precedence of `00E0` and `00EE` over `0nnn` (30_encoding.md). -/

namespace Sys2Proof

/-- A term stands for a word of its own: `0nnn` is every word with first nibble 0 "other than 00E0/00EE" (R59, R74). -/
def Instr.wf : Instr → Bool
  | .sys nnn => nnn != 0x0E0#12 && nnn != 0x0EE#12
  | _ => true

end Sys2Proof
end

