-- ==== Sys2Proof/Decode.lean ====
section
/-! DEFINITION. The decoder, the encoder and the opcode table (30_encoding.md R53 to R60, R69, R72). -/

namespace Sys2Proof

/-- Why a word or a byte sequence is no instruction. -/
inductive Reject where
  /-- The word matches no pattern (R72); executing it raises DecodeError (R154). -/
  | noPattern (w : Word)
  /-- Fewer than the two bytes of an instruction (R53). -/
  | truncated
  deriving DecidableEq, Repr

/-! ### The fields of a word (R54, R56) -/

/-- `n0 = w[15:12]` (R54). -/
def fieldOp (w : Word) : Nibble := w.extractLsb' 12 4

/-- `X = n1 = w[11:8]` as a nibble (R56). -/
def fieldXNib (w : Word) : Nibble := w.extractLsb' 8 4

/-- `Y = n2 = w[7:4]` as a nibble (R56). -/
def fieldYNib (w : Word) : Nibble := w.extractLsb' 4 4

/-- `N = n3 = w[3:0]` (R56). -/
def fieldN (w : Word) : Nibble := w.extractLsb' 0 4

/-- `NN = w[7:0]` (R56). -/
def fieldNN (w : Word) : Byte := w.extractLsb' 0 8

/-- `NNN = w[11:0]` (R56). -/
def fieldNNN (w : Word) : Addr12 := w.extractLsb' 0 12

/-- The register a nibble names (R56). -/
def regOf (n : Nibble) : Reg := ⟨n.toNat, n.isLt⟩

/-- The nibble that names a register (R56). -/
def nibOf (r : Reg) : Nibble := BitVec.ofFin r

/-- The field X as a register number (R56). -/
def fieldX (w : Word) : Reg := regOf (fieldXNib w)

/-- The field Y as a register number (R56). -/
def fieldY (w : Word) : Reg := regOf (fieldYNib w)

/-- The word of two bytes, the first the high one (R37, R54). -/
def wordOf (hi lo : Byte) : Word := hi ++ lo

/-- The first byte of a word as it stands in memory (R37). -/
def hiByte (w : Word) : Byte := w.extractLsb' 8 8

/-- The second byte of a word as it stands in memory (R37). -/
def loByte (w : Word) : Byte := w.extractLsb' 0 8

/-! ### Decoding -/

/-- First nibble 0: the two fixed words first, then `0nnn` (R59). -/
def decode0 (w : Word) : Instr :=
  if w = 0x00E0#16 then .cls
  else if w = 0x00EE#16 then .ret
  else .sys (fieldNNN w)

/-- First nibble 8: the function is the last nibble (R60). -/
def decode8 (w : Word) : Except Reject Instr :=
  if fieldN w = 0x0#4 then .ok (.ldReg (fieldX w) (fieldY w))
  else if fieldN w = 0x1#4 then .ok (.orReg (fieldX w) (fieldY w))
  else if fieldN w = 0x2#4 then .ok (.andReg (fieldX w) (fieldY w))
  else if fieldN w = 0x3#4 then .ok (.xorReg (fieldX w) (fieldY w))
  else if fieldN w = 0x4#4 then .ok (.addReg (fieldX w) (fieldY w))
  else if fieldN w = 0x5#4 then .ok (.subReg (fieldX w) (fieldY w))
  else if fieldN w = 0x6#4 then .ok (.shr (fieldX w) (fieldYNib w))
  else if fieldN w = 0xE#4 then .ok (.shl (fieldX w) (fieldYNib w))
  else .error (.noPattern w)

/-- First nibble E: the function is the low byte (R60). -/
def decodeE (w : Word) : Except Reject Instr :=
  if fieldNN w = 0x9E#8 then .ok (.skp (fieldX w))
  else if fieldNN w = 0xA1#8 then .ok (.sknp (fieldX w))
  else .error (.noPattern w)

/-- First nibble F: the function is the low byte (R60). -/
def decodeF (w : Word) : Except Reject Instr :=
  if fieldNN w = 0x07#8 then .ok (.ldVxDt (fieldX w))
  else if fieldNN w = 0x15#8 then .ok (.ldDtVx (fieldX w))
  else if fieldNN w = 0x18#8 then .ok (.ldStVx (fieldX w))
  else if fieldNN w = 0x1E#8 then .ok (.addI (fieldX w))
  else if fieldNN w = 0x29#8 then .ok (.ldF (fieldXNib w))
  else if fieldNN w = 0x33#8 then .ok (.ldB (fieldX w))
  else if fieldNN w = 0x55#8 then .ok (.stRegs (fieldX w))
  else if fieldNN w = 0x65#8 then .ok (.ldRegs (fieldX w))
  else .error (.noPattern w)

/-- Decoding is a function of the 16-bit word alone (R59), by the opcode map of R60. -/
def decodeWord (w : Word) : Except Reject Instr :=
  if fieldOp w = 0x0#4 then .ok (decode0 w)
  else if fieldOp w = 0x1#4 then .ok (.jp (fieldNNN w))
  else if fieldOp w = 0x2#4 then .ok (.call (fieldNNN w))
  else if fieldOp w = 0x3#4 then .ok (.seImm (fieldX w) (fieldNN w))
  else if fieldOp w = 0x4#4 then .ok (.sneImm (fieldX w) (fieldNN w))
  else if fieldOp w = 0x5#4 then
    if fieldN w = 0x0#4 then .ok (.seReg (fieldX w) (fieldY w)) else .error (.noPattern w)
  else if fieldOp w = 0x6#4 then .ok (.ldImm (fieldX w) (fieldNN w))
  else if fieldOp w = 0x7#4 then .ok (.addImm (fieldX w) (fieldNN w))
  else if fieldOp w = 0x8#4 then decode8 w
  else if fieldOp w = 0x9#4 then
    if fieldN w = 0x0#4 then .ok (.sneReg (fieldX w) (fieldY w)) else .error (.noPattern w)
  else if fieldOp w = 0xA#4 then .ok (.ldI (fieldNNN w))
  else if fieldOp w = 0xB#4 then .ok (.jpV0 (fieldNNN w))
  else if fieldOp w = 0xC#4 then .ok (.rnd (fieldX w) (fieldNN w))
  else if fieldOp w = 0xD#4 then .ok (.drw (fieldX w) (fieldY w) (fieldN w))
  else if fieldOp w = 0xE#4 then decodeE w
  else decodeF w

/-- Decode the bytes of memory order: an instruction is two bytes (R53), and the rest follows it. -/
def decode : List Byte → Except Reject (Instr × List Byte)
  | hi :: lo :: rest =>
    match decodeWord (wordOf hi lo) with
    | .ok i => .ok (i, rest)
    | .error r => .error r
  | _ => .error .truncated

/-- What the decoder reads from an instruction given as opcode_table.json numbers its bits: the word goes to the
decoder as the two bytes it occupies in memory. -/
def decodeTableWord (nbits w : Nat) : Option Instr :=
  match decode [hiByte (BitVec.ofNat 16 (w % 2 ^ nbits)), loByte (BitVec.ofNat 16 (w % 2 ^ nbits))] with
  | .ok (i, _) => some i
  | .error _ => none

/-! ### Encoding -/

/-- Format I: opcode, X, NN (R55). -/
def packXNN (op : Nibble) (x : Reg) (nn : Byte) : Word := op ++ nibOf x ++ nn

/-- Formats R and D: opcode, X, Y, last nibble (R55). -/
def packXYN (op : Nibble) (x : Reg) (y n : Nibble) : Word := op ++ nibOf x ++ y ++ n

/-- Format A: opcode, NNN (R55). -/
def packNNN (op : Nibble) (nnn : Addr12) : Word := op ++ nnn

/-- The word of an instruction, by the formats of R55 and the patterns of R60. -/
def encode : Instr → Word
  | .cls => 0x00E0#16
  | .ret => 0x00EE#16
  | .sys nnn => packNNN 0x0#4 nnn
  | .jp nnn => packNNN 0x1#4 nnn
  | .call nnn => packNNN 0x2#4 nnn
  | .seImm x nn => packXNN 0x3#4 x nn
  | .sneImm x nn => packXNN 0x4#4 x nn
  | .seReg x y => packXYN 0x5#4 x (nibOf y) 0x0#4
  | .ldImm x nn => packXNN 0x6#4 x nn
  | .addImm x nn => packXNN 0x7#4 x nn
  | .ldReg x y => packXYN 0x8#4 x (nibOf y) 0x0#4
  | .orReg x y => packXYN 0x8#4 x (nibOf y) 0x1#4
  | .andReg x y => packXYN 0x8#4 x (nibOf y) 0x2#4
  | .xorReg x y => packXYN 0x8#4 x (nibOf y) 0x3#4
  | .addReg x y => packXYN 0x8#4 x (nibOf y) 0x4#4
  | .subReg x y => packXYN 0x8#4 x (nibOf y) 0x5#4
  | .shr x ignored => packXYN 0x8#4 x ignored 0x6#4
  | .shl x ignored => packXYN 0x8#4 x ignored 0xE#4
  | .sneReg x y => packXYN 0x9#4 x (nibOf y) 0x0#4
  | .ldI nnn => packNNN 0xA#4 nnn
  | .jpV0 nnn => packNNN 0xB#4 nnn
  | .rnd x nn => packXNN 0xC#4 x nn
  | .drw x y n => packXYN 0xD#4 x (nibOf y) n
  | .skp x => packXNN 0xE#4 x 0x9E#8
  | .sknp x => packXNN 0xE#4 x 0xA1#8
  | .ldVxDt x => packXNN 0xF#4 x 0x07#8
  | .ldDtVx x => packXNN 0xF#4 x 0x15#8
  | .ldStVx x => packXNN 0xF#4 x 0x18#8
  | .addI x => packXNN 0xF#4 x 0x1E#8
  | .ldF digit => packXYN 0xF#4 (regOf digit) 0x2#4 0x9#4
  | .ldB x => packXNN 0xF#4 x 0x33#8
  | .stRegs x => packXNN 0xF#4 x 0x55#8
  | .ldRegs x => packXNN 0xF#4 x 0x65#8

/-! ### The opcode table (R59, R69), which reads words by mask and match, apart from the decoder -/

/-- A row of opcode_table.json: its pattern, and the mask and match by which a word selects it (R69). -/
structure Row where
  /-- The document's name of the instruction. -/
  pattern : String
  /-- Which bits of the word the row fixes. -/
  mask : Word
  /-- What those bits are. -/
  bits : Word
  deriving DecidableEq, Repr

/-- The row of each constructor, as opcode_table.json has it. -/
def Instr.row : Instr → Row
  | .cls => ⟨"00E0", 0xFFFF, 0x00E0⟩
  | .ret => ⟨"00EE", 0xFFFF, 0x00EE⟩
  | .sys _ => ⟨"0nnn", 0xF000, 0x0000⟩
  | .jp _ => ⟨"1nnn", 0xF000, 0x1000⟩
  | .call _ => ⟨"2nnn", 0xF000, 0x2000⟩
  | .seImm _ _ => ⟨"3xnn", 0xF000, 0x3000⟩
  | .sneImm _ _ => ⟨"4xnn", 0xF000, 0x4000⟩
  | .seReg _ _ => ⟨"5xy0", 0xF00F, 0x5000⟩
  | .ldImm _ _ => ⟨"6xnn", 0xF000, 0x6000⟩
  | .addImm _ _ => ⟨"7xnn", 0xF000, 0x7000⟩
  | .ldReg _ _ => ⟨"8xy0", 0xF00F, 0x8000⟩
  | .orReg _ _ => ⟨"8xy1", 0xF00F, 0x8001⟩
  | .andReg _ _ => ⟨"8xy2", 0xF00F, 0x8002⟩
  | .xorReg _ _ => ⟨"8xy3", 0xF00F, 0x8003⟩
  | .addReg _ _ => ⟨"8xy4", 0xF00F, 0x8004⟩
  | .subReg _ _ => ⟨"8xy5", 0xF00F, 0x8005⟩
  | .shr _ _ => ⟨"8xy6", 0xF00F, 0x8006⟩
  | .shl _ _ => ⟨"8xyE", 0xF00F, 0x800E⟩
  | .sneReg _ _ => ⟨"9xy0", 0xF00F, 0x9000⟩
  | .ldI _ => ⟨"Annn", 0xF000, 0xA000⟩
  | .jpV0 _ => ⟨"Bnnn", 0xF000, 0xB000⟩
  | .rnd _ _ => ⟨"Cxnn", 0xF000, 0xC000⟩
  | .drw _ _ _ => ⟨"Dxyn", 0xF000, 0xD000⟩
  | .skp _ => ⟨"Ex9E", 0xF0FF, 0xE09E⟩
  | .sknp _ => ⟨"ExA1", 0xF0FF, 0xE0A1⟩
  | .ldVxDt _ => ⟨"Fx07", 0xF0FF, 0xF007⟩
  | .ldDtVx _ => ⟨"Fx15", 0xF0FF, 0xF015⟩
  | .ldStVx _ => ⟨"Fx18", 0xF0FF, 0xF018⟩
  | .addI _ => ⟨"Fx1E", 0xF0FF, 0xF01E⟩
  | .ldF _ => ⟨"Fn29", 0xF0FF, 0xF029⟩
  | .ldB _ => ⟨"Fx33", 0xF0FF, 0xF033⟩
  | .stRegs _ => ⟨"Fx55", 0xF0FF, 0xF055⟩
  | .ldRegs _ => ⟨"Fx65", 0xF0FF, 0xF065⟩

/-- A word selects a row when `(w AND mask) = match`; the fixed words `00E0` and `00EE` take precedence over `0nnn`
(R59). -/
abbrev Row.selects (r : Row) (w : Word) : Prop :=
  w &&& r.mask = r.bits ∧ (r.pattern = "0nnn" → w ≠ 0x00E0#16 ∧ w ≠ 0x00EE#16)

end Sys2Proof
end

