-- ==== Sys2Proof/Config.lean ====
section
/-! DEFINITION. What an implementation fixes (00_scope.md R7) and the free values of the two input ports
(10_state.md R31). -/

namespace Sys2Proof.Config

/-- MEM_SIZE (R7, R36). -/
abbrev memSize : Nat := 4096

/-- PROGRAM_BASE: where the image is loaded and where the program counter starts (R7, R174). -/
abbrev programBase : Nat := 0x200

/-- FONT_STRIDE: bytes of one glyph (R7, R127). -/
abbrev fontStride : Nat := 5

/-- The length of FONT: 16 glyphs of 5 bytes from address 0 (R7, R35). -/
abbrev fontBytes : Nat := 80

/-- STACK_DEPTH (R7, R23; stated once in the source, 91_not_in_source.md N3). -/
abbrev stackDepth : Nat := 24

/-- DISP_W: columns of the display (R7, R28). -/
abbrev dispW : Nat := 64

/-- DISP_H: rows of the display (R7, R28). -/
abbrev dispH : Nat := 32

/-- FREE VALUE (log 7). The byte at the port rnd_in at the k-th draw: "a draw under no law" (R117, U5). -/
opaque rndIn : Nat → Byte

/-- FREE VALUE (log 6). The 16 key lines of the port key_in at the k-th sample, when an input adapter is wired in:
"an input under no law" (R94, U6). -/
opaque keyIn : Nat → Word

/-- The parameters that R7 and U6 leave to whoever builds the machine, fixed before reset (R34). -/
structure Params where
  /-- TIMER_DIVIDER: every how many completed cycles the timers tick (R7, R150). -/
  timerDivider : Nat
  /-- CYC_RESET: the divider's phase at reset (R7, R24). -/
  cycReset : Nat
  /-- FONT: the 80 bytes at addresses 0x000 to 0x04F after reset (R35). -/
  font : Vector Byte fontBytes
  /-- Whether an input adapter is wired in (R95, U6). -/
  keypad : Bool
  deriving DecidableEq, Repr

/-- What R24 and R150 ask of the parameters: a divider of at least 1, and a phase below it. -/
abbrev Params.wf (p : Params) : Prop := 1 ≤ p.timerDivider ∧ p.cycReset < p.timerDivider

/-- PRESUMED (log 4). The font customary for this family of machines, as U9 of 93_implementation_defined.md prints it;
no passage of the source confirms a byte of it. -/
def customaryFont : Vector Byte fontBytes :=
  #v[0xF0, 0x90, 0x90, 0x90, 0xF0,  0x20, 0x60, 0x20, 0x20, 0x70,
     0xF0, 0x10, 0xF0, 0x80, 0xF0,  0xF0, 0x10, 0xF0, 0x10, 0xF0,
     0x90, 0x90, 0xF0, 0x10, 0x10,  0xF0, 0x80, 0xF0, 0x10, 0xF0,
     0xF0, 0x80, 0xF0, 0x90, 0xF0,  0xF0, 0x10, 0x20, 0x40, 0x40,
     0xF0, 0x90, 0xF0, 0x90, 0xF0,  0xF0, 0x90, 0xF0, 0x10, 0xF0,
     0xF0, 0x90, 0xF0, 0x90, 0x90,  0xE0, 0x90, 0xE0, 0x90, 0xE0,
     0xF0, 0x80, 0x80, 0x80, 0xF0,  0xE0, 0x90, 0x90, 0x90, 0xE0,
     0xF0, 0x80, 0xF0, 0x80, 0xF0,  0xF0, 0x80, 0xF0, 0x80, 0x80]

/-- The parameters State.reset takes: TIMER_DIVIDER 10 and CYC_RESET 0 (the spec's defaults, R7; log 3), the font of
log 4, and no input adapter (R95; DESIGN CHOICE, log 5). -/
def Params.default : Params := ⟨10, 0, customaryFont, false⟩

end Sys2Proof.Config
end

