-- ==== Sys2Proof/Machine/State.lean ====
section
/-! DEFINITION. The architectural state and its reset values (10_state.md R13 to R35). -/

namespace Sys2Proof.Machine

open Sys2Proof.Config

/-- Memory as the bytes that differ from the reset contents, in one canonical form (`Memory.wf`, Machine/Ops.lean): what
an unlisted address reads as is `resetByte` (R33, R42; log 24). -/
abbrev Memory := List Host.Cell

/-- The fault record (R25): `halted`, and the four fields that are valid once it is set. Widths are those of the ports of
R31. -/
structure FaultRecord where
  halted : Bool
  cause : BitVec 3
  word : Word
  pc : Word
  addr : BitVec 17
  deriving DecidableEq, Repr

/-- The fault record after reset: not halted, every field zero (R33, R173; log 10). -/
def FaultRecord.reset : FaultRecord := ⟨false, 0, 0, 0, 0⟩

/-- The six causes of R153. -/
inductive Cause where
  | decodeError
  | unsupportedNativeCall
  | stackOverflow
  | stackUnderflow
  | fetchOutOfRange
  | dataOutOfRange
  deriving DecidableEq, Repr

/-- The whole state. The last three fields are the model's own (INVENTORY.md, State): two counters of draws and the
configuration. -/
structure State where
  /-- x[0] to x[15] (R13). -/
  regs : Vector Byte 16
  /-- The program counter (R16). -/
  pc : Word
  /-- I, the index register (R20). -/
  index : Word
  /-- DT, the delay timer (R21). -/
  dt : Byte
  /-- ST, the sound timer (R22). -/
  st : Byte
  /-- The call stack's slots (R23; log 27). -/
  stack : Vector Word stackDepth
  /-- The call stack's depth, 0 to 24 (R23). -/
  sp : Fin (stackDepth + 1)
  /-- The 4096 bytes of memory (R27). -/
  mem : Memory
  /-- The display, row by row; bit c of a row is the pixel in column c (R28; log 11). -/
  disp : Vector (BitVec dispW) dispH
  /-- cyc, the timer divider counter (R24). -/
  cyc : Nat
  /-- The fault record (R25). -/
  fault : FaultRecord
  /-- MODEL'S OWN (log 7): how many bytes were drawn from rnd_in. -/
  rndDraws : Nat
  /-- MODEL'S OWN (log 6): how many times key_in was sampled. -/
  keyDraws : Nat
  /-- MODEL'S OWN (log 2): the configuration, fixed before reset; no step changes it. -/
  params : Params
  deriving DecidableEq, Repr

/-- Reset under any parameters: "a zeroed state with the font table copied into the lowest memory addresses and the
program counter set to the base offset" (R33, R172, R173). -/
def State.resetWith (p : Params) : State where
  regs := Vector.replicate 16 0
  pc := BitVec.ofNat 16 programBase
  index := 0
  dt := 0
  st := 0
  stack := Vector.replicate stackDepth 0
  sp := 0
  mem := []
  disp := Vector.replicate dispH 0
  cyc := p.cycReset
  fault := FaultRecord.reset
  rndDraws := 0
  keyDraws := 0
  params := p

/-- The machine right after reset, under the default parameters (logs 3, 4, 5, 8). -/
def State.reset : State := State.resetWith Params.default

/-- No step of this machine ends in a fault outcome, so there is no reason for one: every fault of the spec is a halt
that it describes in full (R152, R162, R163), and the model takes it as a next state (log 1). -/
inductive Fault where
  deriving DecidableEq, Repr

/-- Why a step would have no meaning. -/
inductive Refusal where
  /-- Raised by an arm of `exec` for an instruction of the table that has no meaning yet; safe. No arm raises it now. -/
  | notModelled (mnemonic : String)
  deriving DecidableEq, Repr

/-- What a meaning answers. -/
abbrev Result := Host.Outcome State Fault Refusal

end Sys2Proof.Machine
end

