-- ==== Sys2Proof/Machine/Ops.lean ====
section
/-! DEFINITION. The named operations over the state: registers, memory, the fault mechanism, the call stack, the two input
ports, fetch, the timer tick, the program load and the display read-out. The meanings of the instructions are written with
these. -/

namespace Sys2Proof.Machine

open Sys2Proof.Config

/-! ### Reads and writes of single pieces of state (10_state.md) -/

/-- `x[i]` (R11, R13). -/
def State.reg (s : State) (x : Reg) : Byte := s.regs[x]

/-- `x[i] <- v` (R11); no register is hardwired (R13). -/
def State.setReg (s : State) (x : Reg) (v : Byte) : State := { s with regs := s.regs.set x v }

/-- `pc <- target` (R11): no target is checked (R73). -/
def State.setPc (s : State) (v : Word) : State := { s with pc := v }

/-- `I <- v` (R20). -/
def State.setIndex (s : State) (v : Word) : State := { s with index := v }

/-- `DT <- v` (R21). -/
def State.setDt (s : State) (v : Byte) : State := { s with dt := v }

/-- `ST <- v` (R22). -/
def State.setSt (s : State) (v : Byte) : State := { s with st := v }

/-- Replace the memory. -/
def State.setMem (s : State) (m : Memory) : State := { s with mem := m }

/-- Replace the display. -/
def State.setDisp (s : State) (d : Vector (BitVec dispW) dispH) : State := { s with disp := d }

/-! ### Memory (20_memory.md) -/

/-- What an address that the memory does not list reads as: the reset contents, FONT below 0x050 and zero elsewhere
(R33, R42; log 24). -/
def resetByte (p : Params) (a : Nat) : Byte := if h : a < fontBytes then p.font[a] else 0

/-- Read one byte: the listed value, else the reset contents (R41: a read returns the last value written). -/
def Memory.read (p : Params) : Memory → Nat → Byte
  | [], a => resetByte p a
  | (k, v) :: m, a => if k = a then v else Memory.read p m a

/-- Write one byte and keep the list sorted, without an entry that equals the reset contents. -/
def Memory.write (p : Params) : Memory → Nat → Byte → Memory
  | [], a, v => if v = resetByte p a then [] else [(a, v)]
  | (k, w) :: m, a, v =>
    if a < k then (if v = resetByte p a then (k, w) :: m else (a, v) :: (k, w) :: m)
    else if k = a then (if v = resetByte p a then m else (a, v) :: m)
    else (k, w) :: Memory.write p m a v

/-- The canonical form: addresses strictly rising and inside the 4096 bytes, and no entry equal to what an unlisted
address reads as. -/
abbrev Memory.wf (p : Params) (m : Memory) : Prop :=
  m.Pairwise (fun c d => c.1 < d.1) ∧ ∀ c ∈ m, c.1 < memSize ∧ c.2 ≠ resetByte p c.1

/-- `mem[a]` (R11, `MemRead` inside the range). -/
def State.byte (s : State) (a : Nat) : Byte := s.mem.read s.params a

/-- `mem[a] <- v` (R11, `MemWrite` inside the range). Who calls it has checked the range first (R125). -/
def State.setByte (s : State) (a : Nat) (v : Byte) : State := s.setMem (s.mem.write s.params a v)

/-- Write bytes at ascending addresses from a base (R38). -/
def Memory.writeBytes (p : Params) (m : Memory) (base : Nat) : List Byte → Memory
  | [] => m
  | v :: vs => Memory.writeBytes p (m.write p base v) (base + 1) vs

/-! ### Faults (60_exceptions.md) -/

/-- The numeric codes of R153 (the spec's own, D9; log 25). -/
def Cause.code : Cause → BitVec 3
  | .decodeError => 1
  | .unsupportedNativeCall => 2
  | .stackOverflow => 3
  | .stackUnderflow => 4
  | .fetchOutOfRange => 5
  | .dataOutOfRange => 6

/-- `raise F(info)` (R152): the core halts and the record is filled. It is applied to the state in which the execute phase
began, so no write of that phase is kept, while the fetch's advance of pc is. Nothing else changes: nothing is saved
elsewhere, no mode, no vector, and control goes nowhere (R163); there is no return from it (R164). -/
def State.raise (s : State) (c : Cause) (word pc : Word) (addr : BitVec 17) : State :=
  { s with fault := ⟨true, c.code, word, pc, addr⟩ }

/-- A fault that the execute phase of an instruction raises: the word is the instruction's own and the address it was
fetched from is two below the advanced pc (R58, R153; log 9). -/
def State.raiseIn (s : State) (i : Instr) (c : Cause) (addr : BitVec 17) : State :=
  s.raise c (encode i) (s.pc - 2) addr

/-! ### The call stack (R23, R75, R77) -/

/-- `stack[sp] <- v; sp <- sp + 1`, when there is room. -/
def State.push (s : State) (v : Word) (h : s.sp.val < stackDepth) : State :=
  { s with stack := s.stack.set s.sp.val v, sp := ⟨s.sp.val + 1, Nat.succ_lt_succ h⟩ }

/-- `sp <- sp - 1; pc <- stack[sp]`, when the stack is not empty; the slot keeps its content (D21). -/
def State.popPc (s : State) (h : 0 < s.sp.val) : State :=
  { s with sp := ⟨s.sp.val - 1, by omega⟩, pc := s.stack[s.sp.val - 1]'(by omega) }

/-! ### Skips and the input ports (41_skips.md, R117) -/

/-- `Skip()`: `pc <- (pc + 2) mod 65536` (R89; log 26). -/
def State.skip (s : State) : State := s.setPc (s.pc + 2)

/-- Skip when a condition holds. -/
def State.skipIf (s : State) (b : Bool) : State := if b then s.skip else s

/-- The 16 key lines as the next sample sees them: a free value when an input adapter is wired in, all zeros when none is
(R94, R95; logs 5, 6). -/
def State.keyLines (s : State) : Word := if s.params.keypad then keyIn s.keyDraws else 0

/-- `KeyPressed(k)` (R97): the line of key k, and "not pressed" for a number that names no key. -/
def State.keyPressed (s : State) (k : Byte) : Bool := if k.toNat ≤ 15 then s.keyLines.getLsbD k.toNat else false

/-- Move on to the next sample of key_in (log 6). -/
def State.keyDrawn (s : State) : State := { s with keyDraws := s.keyDraws + 1 }

/-- `RandomByte()`: the free byte at rnd_in (R117; log 7). -/
def State.rndByte (s : State) : Byte := rndIn s.rndDraws

/-- Move on to the next byte of rnd_in (log 7). -/
def State.rndDrawn (s : State) : State := { s with rndDraws := s.rndDraws + 1 }

/-! ### Fetch and the end of a cycle (30_encoding.md R58, R62; 45_timers.md R146) -/

/-- The word at an address: the byte there is the high byte (R37), whatever the address's parity (R39). -/
def State.wordAt (s : State) (a : Nat) : Word := wordOf (s.byte a) (s.byte (a + 1))

/-- `Fetch()` (R58): the word at pc and the state with pc advanced, or nothing when pc is above 0x0FFE. -/
def State.fetch (s : State) : Option (Word × State) :=
  if s.pc.toNat > 0x0FFE then none else some (s.wordAt s.pc.toNat, s.setPc (s.pc + 2))

/-- A timer after a tick: one less, and zero stays zero (R146). -/
def ticked (t : Byte) : Byte := if t ≠ 0 then t - 1 else t

/-- `TimerTick()` (R146). -/
def State.timerTick (s : State) : State := (s.setDt (ticked s.dt)).setSt (ticked s.st)

/-- Set the divider counter. -/
def State.setCyc (s : State) (n : Nat) : State := { s with cyc := n }

/-- What a cycle does after its execute phase (R62): count it, and tick when the count reaches TIMER_DIVIDER. -/
def State.endCycle (s : State) : State :=
  if s.cyc + 1 = s.params.timerDivider then (s.timerTick).setCyc 0 else s.setCyc (s.cyc + 1)

/-- The rest of a cycle is not performed when the execute phase raised a fault (R62, R152). -/
def State.finish (s : State) : State := if s.fault.halted then s else s.endCycle

/-! ### The host's side: program load and display read-out (R49, R50, R140) -/

/-- `load_image`: the image goes to 0x200 and nothing else changes (R49); an image of more than 3584 bytes is refused
(R50; logs 12, 13). -/
def State.loadImage (s : State) (image : List Byte) : Option State :=
  if image.length ≤ memSize - programBase then some (s.setMem (s.mem.writeBytes s.params programBase image)) else none

/-- The pixel in a row and a column (R28); false is unset. -/
def pixelOf (d : Vector (BitVec dispW) dispH) (row col : Nat) : Bool :=
  if h : row < dispH then d[row].getLsbD col else false

/-- `disp[row][col]` (R28). -/
def State.pixel (s : State) (row col : Nat) : Bool := pixelOf s.disp row col

/-- `disp_out` (R140): the 2048 pixels in row-major order, index `row * 64 + col`, each 0 or 1. -/
def State.dispOut (s : State) : List (BitVec 1) :=
  (List.range (dispH * dispW)).map fun i => BitVec.ofBool (s.pixel (i / dispW) (i % dispW))

end Sys2Proof.Machine
end

