-- ==== Sys2Proof/Machine/Operands.lean ====
section
/-! DEFINITION. The operand forms: zero-extended immediates (30_encoding.md R57), the one addressing mode I + k and its range
check (43_index_and_memory.md R124, R125), and the register ranges of `Fx55` and `Fx65`. -/

namespace Sys2Proof.Machine

open Sys2Proof.Config

/-- `zext_16(NNN)` (R57). -/
def zext12 (nnn : Addr12) : Word := nnn.setWidth 16

/-- `zext_16(x[i])` (R57). -/
def zext8 (v : Byte) : Word := v.setWidth 16

/-- The effective address `I + k`, on unbounded integers (R44, R124). -/
def State.dataAddr (s : State) (k : Nat) : Nat := s.index.toNat + k

/-- The range check for offsets 0 to m, before any read or write: `I + m <= 4095` (R125). -/
def State.inRange (s : State) (m : Nat) : Bool := s.dataAddr m ≤ 4095

/-- The smallest out-of-range address an access would touch: `max(I, 4096)` (R131). -/
def State.badAddr (s : State) : BitVec 17 := BitVec.ofNat 17 (max s.index.toNat 4096)

/-- `raise DataOutOfRange(max(I, 4096))` (R125, R131, R159). -/
def State.raiseData (s : State) (i : Instr) : State := s.raiseIn i .dataOutOfRange s.badAddr

/-- The registers 0 to X, ascending and inclusive (R129, R130). -/
def regsUpTo (x : Reg) : List Reg := (List.finRange 16).filter (fun k => k ≤ x)

/-- The three decimal digits of a byte, hundreds first (R128). -/
def decimalDigits (v : Byte) : List Byte :=
  [BitVec.ofNat 8 (v.toNat / 100), BitVec.ofNat 8 (v.toNat / 10 % 10), BitVec.ofNat 8 (v.toNat % 10)]

end Sys2Proof.Machine
end

