-- ==== Sys2Proof/Machine/Alu.lean ====
section
/-! DEFINITION. Register loads, the 8-bit ALU and the random byte (42_load_and_alu.md R99 to R119). Byte arithmetic is
`mod 256` (R100). Where an instruction writes both x[X] and x[15], the order of R101 decides what is left when X = 15
(log 15). -/

namespace Sys2Proof.Machine

/-- `6xnn` (R102). -/
def execLdImm (x : Reg) (nn : Byte) (s : State) : Result := .next (s.setReg x nn)

/-- `7xnn` (R103): wraps, no flag. -/
def execAddImm (x : Reg) (nn : Byte) (s : State) : Result := .next (s.setReg x (s.reg x + nn))

/-- `8xy0` (R104). -/
def execLdReg (x y : Reg) (s : State) : Result := .next (s.setReg x (s.reg y))

/-- `8xy1` (R105): x[15] is not touched (R108). -/
def execOrReg (x y : Reg) (s : State) : Result := .next (s.setReg x (s.reg x ||| s.reg y))

/-- `8xy2` (R106): x[15] is not touched (R108). -/
def execAndReg (x y : Reg) (s : State) : Result := .next (s.setReg x (s.reg x &&& s.reg y))

/-- `8xy3` (R107): x[15] is not touched (R108). -/
def execXorReg (x y : Reg) (s : State) : Result := .next (s.setReg x (s.reg x ^^^ s.reg y))

/-- `8xy4` (R109): the sum, then the carry, both from the operands before either write. -/
def execAddReg (x y : Reg) (s : State) : Result :=
  .next ((s.setReg x (s.reg x + s.reg y)).setReg flagReg (carryFlag (s.reg x) (s.reg y)))

/-- `8xy5` (R113): the difference, then the borrow, both from the operands before either write. -/
def execSubReg (x y : Reg) (s : State) : Result :=
  .next ((s.setReg x (s.reg x - s.reg y)).setReg flagReg (borrowFlag (s.reg x) (s.reg y)))

/-- The two writes of a shift in R101's order: first the flag, then x[X], which the shift reads again. -/
def State.shiftReg (s : State) (x : Reg) (flag : Byte) (shift : Byte → Byte) : State :=
  let s1 := s.setReg flagReg flag
  s1.setReg x (shift (s1.reg x))

/-- `8xy6` (R114): logical shift right by 1; the Y nibble is ignored (R64). -/
def execShr (x : Reg) (_ignored : Nibble) (s : State) : Result :=
  .next (s.shiftReg x (lowBitFlag (s.reg x)) (fun v => v >>> 1))

/-- `8xyE` (R115): shift left by 1, wrapping; the Y nibble is ignored (R64). -/
def execShl (x : Reg) (_ignored : Nibble) (s : State) : Result :=
  .next (s.shiftReg x (highBitFlag (s.reg x)) (fun v => v <<< 1))

/-- `Cxnn` (R116): `x[X] <- RandomByte() AND NN`. -/
def execRnd (x : Reg) (nn : Byte) (s : State) : Result := .next ((s.setReg x (s.rndByte &&& nn)).rndDrawn)

end Sys2Proof.Machine
end

