-- ==== Sys2Proof/Machine/Control.lean ====
section
/-! DEFINITION. Control transfer (40_control_flow.md R73 to R81). In every meaning pc has already been advanced by the fetch:
the word stood at `pc - 2` (R73). -/

namespace Sys2Proof.Machine

open Sys2Proof.Config

/-- `0nnn` (R74): not implemented, always `raise UnsupportedNativeCall(w)`. -/
def execSys (nnn : Addr12) (s : State) : Result := .next (s.raiseIn (.sys nnn) .unsupportedNativeCall 0)

/-- `00EE` (R75): pop the return address into pc; `raise StackUnderflow(w)` when the stack is empty. -/
def execRet (s : State) : Result :=
  .next (if h : 0 < s.sp.val then s.popPc h else s.raiseIn .ret .stackUnderflow 0)

/-- `1nnn` (R76): `pc <- zext_16(NNN)`. -/
def execJp (nnn : Addr12) (s : State) : Result := .next (s.setPc (zext12 nnn))

/-- `2nnn` (R77): push pc, which is the next instruction's address, then jump; `raise StackOverflow(w)` when the stack is
full. -/
def execCall (nnn : Addr12) (s : State) : Result :=
  .next (if h : s.sp.val < stackDepth then (s.push s.pc h).setPc (zext12 nnn)
    else s.raiseIn (.call nnn) .stackOverflow 0)

/-- `Bnnn` (R78): `pc <- zext_16(NNN) + zext_16(x[0])`; register 0 whatever the nibbles. -/
def execJpV0 (nnn : Addr12) (s : State) : Result := .next (s.setPc (zext12 nnn + zext8 (s.reg 0)))

end Sys2Proof.Machine
end

