-- ==== Sys2Proof/Machine/Display.lean ====
section
/-! DEFINITION. The display: clear and sprite draw (44_display.md R133 to R142). -/

namespace Sys2Proof.Machine

open Sys2Proof.Config

/-- `00E0` (R134): every pixel 0; no flag. -/
def execCls (s : State) : Result := .next (s.setDisp (Vector.replicate dispH 0))

/-- What a draw carries along: the display and the collision so far (R135). -/
abbrev Canvas := Vector (BitVec dispW) dispH × Bool

/-- Invert the pixel in a row and a column. -/
def flipPixel (d : Vector (BitVec dispW) dispH) (row col : Nat) : Vector (BitVec dispW) dispH :=
  if h : row < dispH then d.set row (d[row] ^^^ BitVec.twoPow dispW col) else d

/-- One target pixel of a draw (R135): a sprite bit of 1 collides when the pixel is set, and inverts it; a sprite bit of 0
leaves it (R136). -/
def drawPixel (k : Canvas) (row col : Nat) (bit : Bool) : Canvas :=
  if bit then (flipPixel k.1 row col, k.2 || pixelOf k.1 row col) else k

/-- One sprite row (R135): eight pixels, most significant bit first, columns modulo 64. -/
def drawRow (k : Canvas) (vx row : Nat) (b : Byte) : Canvas :=
  (List.range 8).foldl (fun k c => drawPixel k row ((vx + c) % dispW) (b.getLsbD (7 - c))) k

/-- The rows of a sprite, top to bottom, from a row offset on (R135): rows modulo 32. -/
def drawRows (k : Canvas) (vx vy r : Nat) : List Byte → Canvas
  | [] => k
  | b :: bs => drawRows (drawRow k vx ((vy + r) % dispH) b) vx vy (r + 1) bs

/-- The N bytes of a sprite, at I and on (R136). -/
def State.sprite (s : State) (n : Nat) : List Byte := (List.range n).map fun r => s.byte (s.dataAddr r)

/-- The display and the collision after the draw loops of R135, from the coordinates read before x[15] is written. -/
def State.drawn (s : State) (x y : Reg) (n : Nibble) : Canvas :=
  drawRows (s.disp, false) (s.reg x).toNat (s.reg y).toNat 0 (s.sprite n.toNat)

/-- `Dxyn` (R135): the range check only when N > 0 (R142; log 22), then the draw, and x[15] last. -/
def execDrw (x y : Reg) (n : Nibble) (s : State) : Result :=
  .next (if 0 < n.toNat ∧ s.inRange (n.toNat - 1) = false then s.raiseData (.drw x y n)
    else (s.setDisp (s.drawn x y n).1).setReg flagReg (flagOf (s.drawn x y n).2))

end Sys2Proof.Machine
end

