-- ==== Sys2Proof/Machine/Index.lean ====
section
/-! DEFINITION. The index register, loads and stores (43_index_and_memory.md R120 to R132). I is changed by no access
(R126; log 23), and an access that would leave the 4096 bytes raises DataOutOfRange before any effect (R125; log 20). -/

namespace Sys2Proof.Machine

open Sys2Proof.Config

/-- `Annn` (R121): `I <- zext_16(NNN)`. -/
def execLdI (nnn : Addr12) (s : State) : Result := .next (s.setIndex (zext12 nnn))

/-- `Fx1E` (R122): a 16-bit add, no flag (D5; log 16). -/
def execAddI (x : Reg) (s : State) : Result := .next (s.setIndex (s.index + zext8 (s.reg x)))

/-- `Fn29` (R127): `I <- 5 * X`, X the nibble itself; no register is read. -/
def execLdF (digit : Nibble) (s : State) : Result := .next (s.setIndex (BitVec.ofNat 16 (fontStride * digit.toNat)))

/-- Store bytes at I, I + 1 and on (R38). -/
def State.storeAtIndex (s : State) (vs : List Byte) : State := s.setMem (s.mem.writeBytes s.params (s.dataAddr 0) vs)

/-- `Fx33` (R128): the three decimal digits of x[X] at I, I + 1, I + 2. -/
def execLdB (x : Reg) (s : State) : Result :=
  .next (if s.inRange 2 then s.storeAtIndex (decimalDigits (s.reg x)) else s.raiseData (.ldB x))

/-- `Fx55` (R129): registers 0 to X, inclusive, at I and on. -/
def execStRegs (x : Reg) (s : State) : Result :=
  .next (if s.inRange x.val then s.storeAtIndex ((regsUpTo x).map s.reg) else s.raiseData (.stRegs x))

/-- Load each of the listed registers from I + its own number, in the list's order (R130). -/
def State.loadRegs (s : State) : List Reg → State
  | [] => s
  | k :: ks => (s.setReg k (s.byte (s.dataAddr k.val))).loadRegs ks

/-- `Fx65` (R130): registers 0 to X, inclusive, from I and on. -/
def execLdRegs (x : Reg) (s : State) : Result :=
  .next (if s.inRange x.val then s.loadRegs (regsUpTo x) else s.raiseData (.ldRegs x))

end Sys2Proof.Machine
end

