-- ==== Sys2Proof/Machine/Skip.lean ====
section
/-! DEFINITION. The conditional skips (41_skips.md R82 to R98). -/

namespace Sys2Proof.Machine

/-- `3xnn` (R83): skip if `x[X] = NN`. -/
def execSeImm (x : Reg) (nn : Byte) (s : State) : Result := .next (s.skipIf (s.reg x = nn))

/-- `4xnn` (R84): skip if `x[X] != NN`. -/
def execSneImm (x : Reg) (nn : Byte) (s : State) : Result := .next (s.skipIf (s.reg x ≠ nn))

/-- `5xy0` (R85): skip if `x[X] = x[Y]`. -/
def execSeReg (x y : Reg) (s : State) : Result := .next (s.skipIf (s.reg x = s.reg y))

/-- `9xy0` (R86): skip if `x[X] != x[Y]`. -/
def execSneReg (x y : Reg) (s : State) : Result := .next (s.skipIf (s.reg x ≠ s.reg y))

/-- `Ex9E` (R87): skip if `KeyPressed(x[X]) = 1`. -/
def execSkp (x : Reg) (s : State) : Result := .next ((s.skipIf (s.keyPressed (s.reg x))).keyDrawn)

/-- `ExA1` (R88): skip if `KeyPressed(x[X]) = 0`. -/
def execSknp (x : Reg) (s : State) : Result := .next ((s.skipIf (!s.keyPressed (s.reg x))).keyDrawn)

end Sys2Proof.Machine
end

