-- ==== Sys2Proof/Machine/Timers.lean ====
section
/-! DEFINITION. The timer instructions (45_timers.md R143 to R150); the tick itself is `State.timerTick` (Machine/Ops.lean). -/

namespace Sys2Proof.Machine

/-- `Fx07` (R144): `x[X] <- DT`. -/
def execLdVxDt (x : Reg) (s : State) : Result := .next (s.setReg x s.dt)

/-- `Fx15` (R145): `DT <- x[X]`. -/
def execLdDtVx (x : Reg) (s : State) : Result := .next (s.setDt (s.reg x))

/-- `Fx18` (R147): `ST <- x[X]`. -/
def execLdStVx (x : Reg) (s : State) : Result := .next (s.setSt (s.reg x))

end Sys2Proof.Machine
end

