-- ==== Sys2Proof/Machine/Cycle.lean ====
section
/-! DEFINITION. The machine cycle (30_encoding.md R62). -/

namespace Sys2Proof.Machine

/-- Execute a fetched word (R59, R61): its instruction's meaning and then the end of the cycle, or DecodeError for a word
without a pattern (R72). The state already has pc advanced; `a` is the address the word was fetched from. -/
def runWord (w a : Word) (s : State) : Result :=
  match decodeWord w with
  | .error _ => .next (s.raise .decodeError w a 0)
  | .ok i =>
    match exec i s with
    | .next t => .next t.finish
    | .fault r => .fault r
    | .refused r => .refused r

/-- `Cycle()` (R62): nothing when halted (R163); else fetch, execute, end of cycle. A fetch above 0x0FFE raises
FetchOutOfRange with pc unchanged (R158). -/
def cycle (s : State) : Result :=
  if s.fault.halted then .next s
  else
    match s.fetch with
    | none => .next (s.raise .fetchOutOfRange 0 s.pc 0)
    | some (w, s1) => runWord w s.pc s1

/-- Where the very next cycle fetches from: pc, or the base offset when nothing can be fetched at pc (log 12). -/
def fetchAddr (s : State) : Nat := if s.pc.toNat > 0x0FFE then Sys2Proof.Config.programBase else s.pc.toNat

/-- Place a word where the very next cycle fetches it, high byte first (R37), and make that cycle fetch it: a core that is
halted is taken out of the halt, and a pc at which nothing can be fetched becomes 0x200 (log 12). -/
def placeWord (s : State) (w : Word) : State :=
  let a := fetchAddr s
  { ((s.setPc (BitVec.ofNat 16 a)).setByte a (hiByte w)).setByte (a + 1) (loByte w) with
    fault := if s.fault.halted then FaultRecord.reset else s.fault }

end Sys2Proof.Machine
end

