-- ==== Sys2Proof/Machine/Step.lean ====
section
/-! DEFINITION. One step of the machine is one machine cycle (00_scope.md R9, 10_state.md R31). -/

namespace Sys2Proof.Machine

/-- The event `step` starts one cycle (R31, R62). -/
def step (s : State) : Host.Outcome State Fault Refusal := cycle s

/-- `s` with an instruction, given as opcode_table.json numbers its bits, where the next step fetches (log 12). -/
def State.withFetchWord (s : State) (nbits w : Nat) : State := placeWord s (BitVec.ofNat 16 (w % 2 ^ nbits))

end Sys2Proof.Machine
end

