-- ==== Sys2Proof/Safety.lean ====
section
/-! DEFINITION. The words that statements are written in: a running core, a safe run, the invariant of R32, what an
instruction leaves unchanged, which fault a cycle raises (R153) and which pixels a sprite covers (R136). -/

namespace Sys2Proof.Machine

open Sys2Proof.Config

/-! ### Safe runs -/

/-- The core is not halted (R25). A halted state is a failed run, never a final state (R163, U12). -/
def State.running (s : State) : Prop := s.fault.halted = false

/-- No state of the first `k` cycles is halted: "no fault is reached" is something to prove (R163). -/
def State.safeFor (s : State) : Nat → Prop
  | 0 => s.running
  | k + 1 => s.running ∧ ∀ t, step s = .next t → t.safeFor k

/-! ### The invariant -/

/-- A fault record as R152 and R153 leave it: zero until the core halts; then a cause 1 to 6, no word for a failed fetch,
and an address above 4095 exactly for DataOutOfRange. -/
structure FaultRecord.Sound (f : FaultRecord) : Prop where
  clear : f.halted = false → f = FaultRecord.reset
  cause : f.halted = true → 1 ≤ f.cause.toNat ∧ f.cause.toNat ≤ 6
  noWord : f.halted = true → f.cause = 5 → f.word = 0
  noAddr : f.halted = true → f.cause ≠ 6 → f.addr = 0
  addr : f.halted = true → f.cause = 6 → 4096 ≤ f.addr.toNat ∧ f.addr.toNat ≤ 0xFFFF

/-- R32, with what it rests on: the parameters are legal (R150), the divider counts below TIMER_DIVIDER, memory keeps its
canonical form, `pc <= 0x10FE`, and a live stack entry is an address that some call pushed, at most 0x1000 (R75). That sp
is at most 24 and that a pixel is 0 or 1 (R32 a, b) holds by type. -/
structure Inv (s : State) : Prop where
  params : s.params.wf
  cyc : s.cyc < s.params.timerDivider
  mem : s.mem.wf s.params
  pc : s.pc.toNat ≤ 0x10FE
  stack : ∀ k : Fin stackDepth, k.val < s.sp.val → s.stack[k].toNat ≤ 0x1000
  fault : s.fault.Sound

/-! ### Frames -/

/-- The pieces of state beside the general registers. -/
inductive Part where
  | pc | index | dt | st | stack | sp | mem | disp | cyc | fault | rndDraws | keyDraws | params
  deriving DecidableEq, Repr

/-- Two states agree on a piece; on memory, byte by byte. -/
def Part.same : Part → State → State → Prop
  | .pc, s, t => t.pc = s.pc
  | .index, s, t => t.index = s.index
  | .dt, s, t => t.dt = s.dt
  | .st, s, t => t.st = s.st
  | .stack, s, t => t.stack = s.stack
  | .sp, s, t => t.sp = s.sp
  | .mem, s, t => ∀ a, t.byte a = s.byte a
  | .disp, s, t => t.disp = s.disp
  | .cyc, s, t => t.cyc = s.cyc
  | .fault, s, t => t.fault = s.fault
  | .rndDraws, s, t => t.rndDraws = s.rndDraws
  | .keyDraws, s, t => t.keyDraws = s.keyDraws
  | .params, s, t => t.params = s.params

/-- From `s` to `t`, every register but those listed and every piece of state but those listed is unchanged. -/
def UnchangedBut (regs : List Reg) (parts : List Part) (s t : State) : Prop :=
  (∀ r, r ∉ regs → t.reg r = s.reg r) ∧ ∀ p, p ∉ parts → p.same s t

/-- The general registers an instruction may write: the table of R15. -/
def regsWritten : Instr → List Reg
  | .ldImm x _ | .addImm x _ | .ldReg x _ | .orReg x _ | .andReg x _ | .xorReg x _ | .rnd x _ | .ldVxDt x => [x]
  | .addReg x _ | .subReg x _ | .shr x _ | .shl x _ => [x, 15]
  | .drw _ _ _ => [15]
  | .ldRegs x => regsUpTo x
  | .cls | .ret | .sys _ | .jp _ | .call _ | .seImm _ _ | .sneImm _ _ | .seReg _ _ | .sneReg _ _ | .ldI _ | .jpV0 _
  | .skp _ | .sknp _ | .ldDtVx _ | .ldStVx _ | .addI _ | .ldF _ | .ldB _ | .stRegs _ => []

/-- The other pieces of state an instruction may write in its execute phase (R17, R20 to R23, R28, R40, R153); the two
counters of draws are the model's own. -/
def partsWritten : Instr → List Part
  | .cls => [.disp]
  | .drw _ _ _ => [.disp, .fault]
  | .sys _ => [.fault]
  | .jp _ | .jpV0 _ | .seImm _ _ | .sneImm _ _ | .seReg _ _ | .sneReg _ _ => [.pc]
  | .skp _ | .sknp _ => [.pc, .keyDraws]
  | .call _ => [.pc, .sp, .stack, .fault]
  | .ret => [.pc, .sp, .fault]
  | .ldI _ | .addI _ | .ldF _ => [.index]
  | .ldB _ | .stRegs _ => [.mem, .fault]
  | .ldRegs _ => [.fault]
  | .ldDtVx _ => [.dt]
  | .ldStVx _ => [.st]
  | .rnd _ _ => [.rndDraws]
  | .ldImm _ _ | .addImm _ _ | .ldReg _ _ | .orReg _ _ | .andReg _ _ | .xorReg _ _ | .addReg _ _ | .subReg _ _
  | .shr _ _ | .shl _ _ | .ldVxDt _ => []

/-! ### What a cycle fetches and which fault it raises -/

/-- The word a cycle fetches: the byte at pc is the high byte (R37, R58). -/
def State.fetched (s : State) : Word := wordOf (s.byte s.pc.toNat) (s.byte (s.pc.toNat + 1))

/-- The table of R153: which cause a cycle that starts in `s` raises, if any, in the order of R162. -/
def State.causeOf (s : State) : Option Cause :=
  if s.pc.toNat > 0x0FFE then some .fetchOutOfRange
  else match decodeWord s.fetched with
    | .error _ => some .decodeError
    | .ok (.sys _) => some .unsupportedNativeCall
    | .ok (.call _) => if s.sp.val = 24 then some .stackOverflow else none
    | .ok .ret => if s.sp.val = 0 then some .stackUnderflow else none
    | .ok (.drw _ _ n) => if 0 < n.toNat ∧ s.index.toNat + n.toNat - 1 > 4095 then some .dataOutOfRange else none
    | .ok (.ldB _) => if s.index.toNat + 2 > 4095 then some .dataOutOfRange else none
    | .ok (.stRegs x) => if s.index.toNat + x.val > 4095 then some .dataOutOfRange else none
    | .ok (.ldRegs x) => if s.index.toNat + x.val > 4095 then some .dataOutOfRange else none
    | .ok _ => none

/-! ### Sprites -/

/-- Some sprite pixel `(c, r)` of the draw `Dxyn` with a sprite bit of 1 lands on display pixel `(col, row)` (R136). -/
def State.spriteSets (s : State) (x y : Reg) (n : Nibble) (row col : Nat) : Prop :=
  ∃ r < n.toNat, ∃ c < 8, row = ((s.reg y).toNat + r) % 32 ∧ col = ((s.reg x).toNat + c) % 64 ∧
    (s.byte (s.index.toNat + r)).getLsbD (7 - c) = true

end Sys2Proof.Machine
end

