-- ==== Sys2Proof/Certificates/Slice0/Obligations.lean ====
section
/-! DEFINITION. The statements for the provers. In a statement about `exec` the state is the one in which the execute phase
begins: pc has been advanced by the fetch (40_control_flow.md R73). -/

open Sys2Proof Sys2Proof.Machine

/-! ### Encoding -/

/-- Derived from 30_encoding.md R54 to R57, R59, R64. Decoding the word of a well-formed instruction gives it back, with
every operand at every value; and so does decoding its two bytes in memory order (R37), whatever follows them. For `8xy6` and
`8xyE` the Y nibble is one of those operands by the model's choice (log 30): R64 gives it no effect. -/
def Obligations.DecodeOfEncodeIsIdentity : Prop :=
  ∀ i : Instr, i.wf = true → decodeWord (encode i) = .ok i ∧
    ∀ rest, decode (hiByte (encode i) :: loByte (encode i) :: rest) = .ok (i, rest)

/-- Derived from 30_encoding.md R59, R61. Every word that decodes does so to one well-formed instruction whose encoding is
that word: the decoder drops no bit. For `8xy6` and `8xyE` that is the MODEL'S CHOICE (log 30): by R64 all 16 values of Y
decode to the same instruction, and the model keeps the nibble in the term, where it has no effect. -/
def Obligations.EncodeOfDecodeIsIdentity : Prop :=
  ∀ (w : Word) (i : Instr), decodeWord w = .ok i → i.wf = true ∧ encode i = w

/-- Derived from 30_encoding.md R59, R69. The decoder picks an instruction exactly when the word selects its row of
opcode_table.json by mask and match (with the precedence of 00E0 and 00EE), and rejects exactly the words that select no
row. -/
def Obligations.DecoderFollowsTheOpcodeTable : Prop :=
  ∀ w : Word,
    (∀ j : Instr, j.row.selects w ↔ ∃ i, decodeWord w = .ok i ∧ i.row = j.row) ∧
    ((∃ r, decodeWord w = .error r) ↔ ∀ j : Instr, ¬ j.row.selects w)

/-- Derived from 30_encoding.md R72. The words without an instruction are those of the five lines of R72's table. -/
def Obligations.IllegalWordsAreTheListedOnes : Prop :=
  ∀ w : Word, (∃ r, decodeWord w = .error r) ↔
    (fieldOp w = 0x5 ∧ fieldN w ≠ 0x0) ∨
    (fieldOp w = 0x8 ∧ fieldN w ∈ [0x7#4, 0x8#4, 0x9#4, 0xA#4, 0xB#4, 0xC#4, 0xD#4, 0xF#4]) ∨
    (fieldOp w = 0x9 ∧ fieldN w ≠ 0x0) ∨
    (fieldOp w = 0xE ∧ fieldNN w ∉ [0x9E#8, 0xA1#8]) ∨
    (fieldOp w = 0xF ∧ fieldNN w ∉ [0x07#8, 0x15#8, 0x18#8, 0x1E#8, 0x29#8, 0x33#8, 0x55#8, 0x65#8])

/-- Derived from 95_test_vectors.md S2, S4, V-DE and V-IX (IX6, which is the example of 43_index_and_memory.md R127). Sanity:
words the spec writes out decode to the instructions it names, and the near-misses it names do not. That the Y nibble of
0x80F6 stands in the term is the model's choice (log 30). -/
def Obligations.WordsWrittenOutInTheSpecDecode : Prop :=
  decodeTableWord 16 0x6005 = some (.ldImm 0 0x05) ∧
  decodeTableWord 16 0xA200 = some (.ldI 0x200) ∧
  decodeTableWord 16 0x00EE = some .ret ∧
  decodeTableWord 16 0xD005 = some (.drw 0 0 5) ∧
  decodeTableWord 16 0xFFFF = none ∧
  decodeTableWord 16 0x00E1 = some (.sys 0x0E1) ∧
  decodeTableWord 16 0x80F6 = some (.shr 0 0xF) ∧
  decodeTableWord 16 0x8007 = none ∧
  decodeTableWord 16 0xF00A = none ∧
  decodeTableWord 16 0xF329 = some (.ldF 3)

/-! ### The machine cycle -/

/-- Derived from 30_encoding.md R58, R61, R62 (its range test is D2, its skipped tick D19). When the two bytes at pc decode
to an instruction, a step of a running core is that instruction's meaning on the state with pc advanced by 2, followed, if
it did not halt the core, by the end of the cycle. -/
def Obligations.StepRunsTheDecodedInstruction : Prop :=
  ∀ (s : State) (i : Instr), s.running → s.pc.toNat ≤ 0x0FFE → decodeWord s.fetched = .ok i →
    ∃ t, exec i (s.setPc (s.pc + 2)) = .next t ∧ step s = .next (if t.fault.halted then t else t.endCycle)

/-- MODEL'S CHOICE (log 12), derived from 20_memory.md R37 and 30_encoding.md R58. `withFetchWord` puts an instruction's word
exactly where the next step fetches: afterwards the core runs, pc is in range, the fetched word is that word, and nothing but
pc, the two bytes there and the fault record can differ; pc and the fault record only when the core was halted or could not
fetch. -/
def Obligations.PlacedWordIsFetchedNext : Prop :=
  ∀ (s : State) (w : Word), s.mem.wf s.params →
    let t := s.withFetchWord 16 w.toNat
    t.running ∧ t.pc.toNat ≤ 0x0FFE ∧ t.fetched = w ∧ t.mem.wf t.params ∧
    UnchangedBut [] [.pc, .mem, .fault] s t ∧
    (∀ a, a ≠ t.pc.toNat → a ≠ t.pc.toNat + 1 → t.byte a = s.byte a) ∧
    (s.pc.toNat ≤ 0x0FFE → t.pc = s.pc) ∧ (s.running → t.fault = s.fault)

/-- 45_timers.md R146. A tick takes one from each timer that is not zero, leaves zero at zero, and touches nothing else. -/
def Obligations.TickDecrementsNonzeroTimers : Prop :=
  ∀ s : State, s.timerTick.dt.toNat = s.dt.toNat - 1 ∧ s.timerTick.st.toNat = s.st.toNat - 1 ∧
    UnchangedBut [] [.dt, .st] s s.timerTick

/-- Derived from 45_timers.md R146, R148 and 30_encoding.md R62 (D8, log 21). At the end of a completed cycle that brings cyc to TIMER_DIVIDER each timer loses one if it is not
zero and cyc restarts; at the end of every other completed cycle the timers keep the value the instruction left. -/
def Obligations.TimersTickEveryDividerthCycle : Prop :=
  ∀ (s : State) (i : Instr) (t : State), s.running → s.pc.toNat ≤ 0x0FFE → decodeWord s.fetched = .ok i →
    exec i (s.setPc (s.pc + 2)) = .next t → t.running →
    ∃ u, step s = .next u ∧
      (s.cyc + 1 = s.params.timerDivider →
        u.dt.toNat = t.dt.toNat - 1 ∧ u.st.toNat = t.st.toNat - 1 ∧ u.cyc = 0 ∧
        UnchangedBut [] [.dt, .st, .cyc] t u) ∧
      (s.cyc + 1 ≠ s.params.timerDivider → u.cyc = s.cyc + 1 ∧ UnchangedBut [] [.cyc] t u)

/-- Derived from 45_timers.md R149 and 10_state.md R21, R22. A step never raises a timer unless it executes the one
instruction that sets it. -/
def Obligations.TimersOnlyFallBetweenSets : Prop :=
  ∀ s t : State, s.running → step s = .next t →
    (t.dt.toNat ≤ s.dt.toNat ∨ ∃ x, decodeWord s.fetched = .ok (.ldDtVx x) ∧ t.dt.toNat ≤ (s.reg x).toNat) ∧
    (t.st.toNat ≤ s.st.toNat ∨ ∃ x, decodeWord s.fetched = .ok (.ldStVx x) ∧ t.st.toNat ≤ (s.reg x).toNat)

/-- Derived from 60_exceptions.md R163. A halted core stays exactly as it is, however often it is stepped. -/
def Obligations.HaltedCoreStaysFrozen : Prop :=
  ∀ s : State, s.fault.halted = true → ∀ k, Host.Core.run Sys2Proof.core k s = .next s

/-- Derived from 60_exceptions.md R153, R159, R162 (decisions D2, D3, D9, D10). Every step of a running core gives a next
state; it halts exactly when R153's table names a cause, with that cause's code and its fault address, and the record is
untouched otherwise. -/
def Obligations.StepHaltsExactlyForTheListedCauses : Prop :=
  ∀ s : State, s.running → ∃ t, step s = .next t ∧
    (s.causeOf = none → t.fault = s.fault) ∧
    (∀ c, s.causeOf = some c → t.fault.halted = true ∧ t.fault.cause = c.code ∧
      t.fault.addr.toNat = if c = .dataOutOfRange then max s.index.toNat 4096 else 0)

/-- Derived from 60_exceptions.md R152, R162 (decisions D9, D10). A cycle that halts the core changes nothing but pc and the
fault record: pc is advanced by 2 and the record names the fetched word and its address; for a failed fetch pc stays and
the word is 0. The code 5 is R153's (D9, log 25). -/
def Obligations.HaltingCycleChangesOnlyPcAndRecord : Prop :=
  ∀ s t : State, s.running → step s = .next t → t.fault.halted = true →
    UnchangedBut [] [.pc, .fault] s t ∧ t.fault.pc = s.pc ∧
    (s.pc.toNat ≤ 0x0FFE → t.pc = s.pc + 2 ∧ t.fault.word = s.fetched ∧ t.fault.cause ≠ 5) ∧
    (s.pc.toNat > 0x0FFE → t.pc = s.pc ∧ t.fault.word = 0 ∧ t.fault.cause = 5)

/-- Derived from 70_reset_and_hazards.md R176. With no image loaded, the first cycle after reset fetches 0x0000 at 0x200 and
halts with UnsupportedNativeCall (code 2, D9). -/
def Obligations.FirstCycleWithoutImageHalts : Prop :=
  ∃ t, step State.reset = .next t ∧ t.fault = ⟨true, 2, 0x0000, 0x0200, 0⟩ ∧ t.pc = 0x0202

/-! ### Control transfer -/

/-- 40_control_flow.md R76, R78. `1nnn` sets pc to NNN, and `Bnnn` to NNN plus register 0 without any reduction; nothing
else changes. -/
def Obligations.JumpsSetPcAlone : Prop :=
  ∀ (nnn : Addr12) (s : State),
    (∃ t, exec (.jp nnn) s = .next t ∧ t.pc.toNat = nnn.toNat ∧ UnchangedBut [] [.pc] s t) ∧
    (∃ t, exec (.jpV0 nnn) s = .next t ∧ t.pc.toNat = nnn.toNat + (s.reg 0).toNat ∧ UnchangedBut [] [.pc] s t)

/-- 40_control_flow.md R77. `2nnn` pushes the advanced pc, the next instruction's address, and jumps; with 24 entries on the
stack it halts, pushes nothing and leaves pc. -/
def Obligations.CallPushesNextAddressAndJumps : Prop :=
  ∀ (nnn : Addr12) (s : State),
    (s.sp.val < 24 → ∃ t, exec (.call nnn) s = .next t ∧ t.pc.toNat = nnn.toNat ∧ t.sp.val = s.sp.val + 1 ∧
      (∀ k : Fin 24, t.stack[k] = if k.val = s.sp.val then s.pc else s.stack[k]) ∧
      UnchangedBut [] [.pc, .sp, .stack] s t) ∧
    (s.sp.val = 24 → ∃ t, exec (.call nnn) s = .next t ∧ t.fault.halted = true ∧ UnchangedBut [] [.fault] s t)

/-- 40_control_flow.md R75. `00EE` pops the newest entry into pc and leaves the slots' contents; with an empty stack it halts
and leaves sp and pc. -/
def Obligations.ReturnPopsIntoPc : Prop :=
  ∀ s : State,
    (0 < s.sp.val → ∃ t, exec .ret s = .next t ∧ t.sp.val + 1 = s.sp.val ∧
      (∀ k : Fin 24, k.val + 1 = s.sp.val → t.pc = s.stack[k]) ∧ UnchangedBut [] [.pc, .sp] s t) ∧
    (s.sp.val = 0 → ∃ t, exec .ret s = .next t ∧ t.fault.halted = true ∧ UnchangedBut [] [.fault] s t)

/-- Derived from 40_control_flow.md R79. A call whose target holds `00EE`: after the two cycles pc is the address after the
call and the stack has its old depth. -/
def Obligations.CallThenReturnRestoresPcAndDepth : Prop :=
  ∀ (s : State) (nnn : Addr12), s.running → s.pc.toNat ≤ 0x0FFE → s.sp.val < 24 →
    decodeWord s.fetched = .ok (.call nnn) → nnn.toNat ≤ 0x0FFE →
    wordOf (s.byte nnn.toNat) (s.byte (nnn.toNat + 1)) = 0x00EE →
    ∃ t, Host.Core.run Sys2Proof.core 2 s = .next t ∧ t.pc = s.pc + 2 ∧ t.sp = s.sp ∧ t.running

/-- 40_control_flow.md R74. `0nnn` always halts the core and changes nothing but the fault record. -/
def Obligations.NativeCallAlwaysHalts : Prop :=
  ∀ (nnn : Addr12) (s : State), ∃ t, exec (.sys nnn) s = .next t ∧ t.fault.halted = true ∧ UnchangedBut [] [.fault] s t

/-! ### Skips -/

/-- Derived from 41_skips.md R82 to R86 and R89 (the amount 2 is derived there). Each register skip adds 2 to the advanced
pc when its comparison holds, and changes nothing else. -/
def Obligations.RegisterSkipsAddTwoWhenTheyHold : Prop :=
  ∀ (x y : Reg) (nn : Byte) (s : State),
    (∃ t, exec (.seImm x nn) s = .next t ∧ t.pc = (if s.reg x = nn then s.pc + 2 else s.pc) ∧ UnchangedBut [] [.pc] s t) ∧
    (∃ t, exec (.sneImm x nn) s = .next t ∧ t.pc = (if s.reg x = nn then s.pc else s.pc + 2) ∧ UnchangedBut [] [.pc] s t) ∧
    (∃ t, exec (.seReg x y) s = .next t ∧ t.pc = (if s.reg x = s.reg y then s.pc + 2 else s.pc) ∧
      UnchangedBut [] [.pc] s t) ∧
    (∃ t, exec (.sneReg x y) s = .next t ∧ t.pc = (if s.reg x = s.reg y then s.pc else s.pc + 2) ∧
      UnchangedBut [] [.pc] s t)

/-- Derived from 41_skips.md R87, R88, R95, R97 (D7). The key number is the value of register x. With an input adapter a
number up to 15 asks the sampled line, a free value (log 6); a number above 15, or no adapter, is "not pressed". `Ex9E`
skips when pressed and `ExA1` when not. Each moves on to a fresh sample (R94): the sample counter, the model's own choice
(log 6), goes up by one; nothing else but pc changes. -/
def Obligations.KeySkipsFollowTheSampledLine : Prop :=
  ∀ (x : Reg) (s : State),
    ∃ p : Bool,
      (s.params.keypad = true → (s.reg x).toNat ≤ 15 →
        p = (Config.keyIn s.keyDraws).getLsbD (s.reg x).toNat) ∧
      ((s.reg x).toNat > 15 → p = false) ∧ (s.params.keypad = false → p = false) ∧
      (∃ t, exec (.skp x) s = .next t ∧ t.pc = (if p then s.pc + 2 else s.pc) ∧ t.keyDraws = s.keyDraws + 1 ∧
        UnchangedBut [] [.pc, .keyDraws] s t) ∧
      (∃ t, exec (.sknp x) s = .next t ∧ t.pc = (if p then s.pc else s.pc + 2) ∧ t.keyDraws = s.keyDraws + 1 ∧
        UnchangedBut [] [.pc, .keyDraws] s t)

/-! ### Loads and the ALU -/

/-- 42_load_and_alu.md R102, R103, R104. Load immediate, add immediate (modulo 256, no flag) and move write register x and
nothing else. -/
def Obligations.LoadsMovesAndImmediateAdd : Prop :=
  ∀ (x y : Reg) (nn : Byte) (s : State),
    (∃ t, exec (.ldImm x nn) s = .next t ∧ t.reg x = nn ∧ UnchangedBut [x] [] s t) ∧
    (∃ t, exec (.addImm x nn) s = .next t ∧ (t.reg x).toNat = ((s.reg x).toNat + nn.toNat) % 256 ∧
      UnchangedBut [x] [] s t) ∧
    (∃ t, exec (.ldReg x y) s = .next t ∧ t.reg x = s.reg y ∧ UnchangedBut [x] [] s t)

/-- 42_load_and_alu.md R105, R106, R107, R108. OR, AND and XOR write register x bit by bit and nothing else: register 15 keeps
its value unless it is x. -/
def Obligations.LogicOperationsLeaveTheFlagAlone : Prop :=
  ∀ (x y : Reg) (s : State),
    (∃ t, exec (.orReg x y) s = .next t ∧
      (∀ k < 8, (t.reg x).getLsbD k = ((s.reg x).getLsbD k || (s.reg y).getLsbD k)) ∧ UnchangedBut [x] [] s t) ∧
    (∃ t, exec (.andReg x y) s = .next t ∧
      (∀ k < 8, (t.reg x).getLsbD k = ((s.reg x).getLsbD k && (s.reg y).getLsbD k)) ∧ UnchangedBut [x] [] s t) ∧
    (∃ t, exec (.xorReg x y) s = .next t ∧
      (∀ k < 8, (t.reg x).getLsbD k = ((s.reg x).getLsbD k != (s.reg y).getLsbD k)) ∧ UnchangedBut [x] [] s t)

/-- 42_load_and_alu.md R110. The add law, for a destination other than register 15. -/
def Obligations.AddSetsCarryExactlyWhenTheSumPasses255 : Prop :=
  ∀ (x y : Reg) (s : State), x ≠ 15 → ∃ t, exec (.addReg x y) s = .next t ∧
    (t.reg x).toNat = ((s.reg x).toNat + (s.reg y).toNat) % 256 ∧
    t.reg 15 = (if (s.reg x).toNat + (s.reg y).toNat > 255 then 1 else 0) ∧ UnchangedBut [x, 15] [] s t

/-- Derived from 42_load_and_alu.md R113 (the flag's reading is D15, log 14). Subtract stores the wrapped difference and sets
register 15 to 1 exactly on borrow, for a destination other than register 15. -/
def Obligations.SubtractSetsBorrowExactlyWhenLess : Prop :=
  ∀ (x y : Reg) (s : State), x ≠ 15 → ∃ t, exec (.subReg x y) s = .next t ∧
    ((t.reg x).toNat : Int) = ((s.reg x).toNat - (s.reg y).toNat : Int) % 256 ∧
    t.reg 15 = (if (s.reg x).toNat < (s.reg y).toNat then 1 else 0) ∧ UnchangedBut [x, 15] [] s t

/-- Derived from 42_load_and_alu.md R114, R115, R119 and 30_encoding.md R64. The shifts move register x by one place and put
the bit shifted out in register 15, as 0 or 1 to the right and as the raw 0x80 or 0x00 to the left, for a destination other
than register 15 and any Y nibble. -/
def Obligations.ShiftsPutTheBitShiftedOutInTheFlag : Prop :=
  ∀ (x : Reg) (ign : Nibble) (s : State), x ≠ 15 →
    (∃ t, exec (.shr x ign) s = .next t ∧ (t.reg x).toNat = (s.reg x).toNat / 2 ∧
      (t.reg 15).toNat = (s.reg x).toNat % 2 ∧ UnchangedBut [x, 15] [] s t) ∧
    (∃ t, exec (.shl x ign) s = .next t ∧ (t.reg x).toNat = 2 * (s.reg x).toNat % 256 ∧
      (t.reg 15).toNat = (if 128 ≤ (s.reg x).toNat then 0x80 else 0) ∧ UnchangedBut [x, 15] [] s t)

/-- Derived from 42_load_and_alu.md R101, R113, R119 (the write order is D6, log 15) and 90_conflicts.md C2 (the unsigned
reading of the borrow is D15, log 14). With register 15 as the destination the add and the subtract leave the flag, and both
shifts leave 0. -/
def Obligations.FlagInstructionsOnRegister15 : Prop :=
  ∀ (y : Reg) (ign : Nibble) (s : State),
    (∃ t, exec (.addReg 15 y) s = .next t ∧
      t.reg 15 = (if (s.reg 15).toNat + (s.reg y).toNat > 255 then 1 else 0) ∧ UnchangedBut [15] [] s t) ∧
    (∃ t, exec (.subReg 15 y) s = .next t ∧
      t.reg 15 = (if (s.reg 15).toNat < (s.reg y).toNat then 1 else 0) ∧ UnchangedBut [15] [] s t) ∧
    (∃ t, exec (.shr 15 ign) s = .next t ∧ t.reg 15 = 0 ∧ UnchangedBut [15] [] s t) ∧
    (∃ t, exec (.shl 15 ign) s = .next t ∧ t.reg 15 = 0 ∧ UnchangedBut [15] [] s t)

/-- Derived from 42_load_and_alu.md R116, R117. Register x becomes the drawn byte, a free value (log 7), AND NN: it never has
a bit that NN lacks. Nothing else changes but the draw counter, the model's own choice (log 7), which moves on. -/
def Obligations.RandomByteIsMasked : Prop :=
  ∀ (x : Reg) (nn : Byte) (s : State), ∃ t, exec (.rnd x nn) s = .next t ∧
    t.reg x = (Config.rndIn s.rndDraws &&& nn) ∧ (∀ k, nn.getLsbD k = false → (t.reg x).getLsbD k = false) ∧
    t.rndDraws = s.rndDraws + 1 ∧ UnchangedBut [x] [.rndDraws] s t

/-! ### The index register and memory -/

/-- 43_index_and_memory.md R121, R127. `Annn` sets I to NNN, and `Fn29` to 5 times its own nibble, whatever the registers
hold; nothing else changes. -/
def Obligations.IndexLoads : Prop :=
  ∀ (nnn : Addr12) (digit : Nibble) (s : State),
    (∃ t, exec (.ldI nnn) s = .next t ∧ t.index.toNat = nnn.toNat ∧ UnchangedBut [] [.index] s t) ∧
    (∃ t, exec (.ldF digit) s = .next t ∧ t.index.toNat = 5 * digit.toNat ∧ UnchangedBut [] [.index] s t)

/-- Derived from 43_index_and_memory.md R122 (the wrap is D5, log 16). `Fx1E` adds register x to I modulo 65536; no flag, no
other change. -/
def Obligations.AddToIndexWrapsAt16Bits : Prop :=
  ∀ (x : Reg) (s : State), ∃ t, exec (.addI x) s = .next t ∧
    t.index.toNat = (s.index.toNat + (s.reg x).toNat) % 65536 ∧ UnchangedBut [] [.index] s t

/-- Derived from 43_index_and_memory.md R128 (the range check is D3, log 20; I unchanged is D13, log 23). `Fx33` in range
stores the hundreds, tens and ones of register x, each a digit, at I, I + 1, I + 2; every other byte and all other state
is unchanged. -/
def Obligations.DecimalDigitsAreStored : Prop :=
  ∀ (x : Reg) (s : State), s.mem.wf s.params → s.index.toNat + 2 ≤ 4095 → ∃ t, exec (.ldB x) s = .next t ∧
    (t.byte s.index.toNat).toNat * 100 + (t.byte (s.index.toNat + 1)).toNat * 10 + (t.byte (s.index.toNat + 2)).toNat =
      (s.reg x).toNat ∧
    (t.byte (s.index.toNat + 1)).toNat ≤ 9 ∧ (t.byte (s.index.toNat + 2)).toNat ≤ 9 ∧
    (∀ a, (a < s.index.toNat ∨ s.index.toNat + 2 < a) → t.byte a = s.byte a) ∧
    UnchangedBut [] [.mem] s t

/-- Derived from 43_index_and_memory.md R129 (D3, log 20; D13, log 23). `Fx55` in range stores registers 0 to x, inclusive,
at I and on; every other byte and all other state is unchanged. -/
def Obligations.RegistersAreStored : Prop :=
  ∀ (x : Reg) (s : State), s.mem.wf s.params → s.index.toNat + x.val ≤ 4095 → ∃ t, exec (.stRegs x) s = .next t ∧
    (∀ k : Reg, k ≤ x → t.byte (s.index.toNat + k.val) = s.reg k) ∧
    (∀ a, (a < s.index.toNat ∨ s.index.toNat + x.val < a) → t.byte a = s.byte a) ∧
    UnchangedBut [] [.mem] s t

/-- Derived from 43_index_and_memory.md R130 (D3, log 20; D13, log 23). `Fx65` in range loads registers 0 to x, inclusive,
from I and on; the other registers, memory and all other state are unchanged. -/
def Obligations.RegistersAreLoaded : Prop :=
  ∀ (x : Reg) (s : State), s.index.toNat + x.val ≤ 4095 → ∃ t, exec (.ldRegs x) s = .next t ∧
    (∀ k : Reg, t.reg k = if k ≤ x then s.byte (s.index.toNat + k.val) else s.reg k) ∧
    UnchangedBut (regsUpTo x) [] s t

/-- Derived from 43_index_and_memory.md R125, R131 (D3, log 20) and 60_exceptions.md R153, R159 (the code 6 is D9, log 25). An
access that would pass address 4095 halts the core before any effect, and the record holds the smallest address it would have
touched above 4095. -/
def Obligations.AccessAbove4095HaltsWithoutEffect : Prop :=
  ∀ (i : Instr) (m : Nat) (s : State),
    ((∃ x, i = .ldB x ∧ m = 2) ∨ (∃ x, i = .stRegs x ∧ m = x.val) ∨ (∃ x, i = .ldRegs x ∧ m = x.val) ∨
      (∃ x y n, i = .drw x y n ∧ n.toNat = m + 1)) →
    s.index.toNat + m > 4095 →
    ∃ t, exec i s = .next t ∧ t.fault.halted = true ∧ UnchangedBut [] [.fault] s t ∧ t.fault.cause = 6 ∧
      t.fault.addr.toNat > 4095 ∧ (∃ k ≤ m, t.fault.addr.toNat = s.index.toNat + k) ∧
      ∀ k, s.index.toNat + k > 4095 → t.fault.addr.toNat ≤ s.index.toNat + k

/-- Derived from 43_index_and_memory.md R126, R129, R130 (D3, log 20; D13, log 23). Storing registers 0 to x and loading them again gives every register
its old value, whatever happened to the registers in between. -/
def Obligations.StoreThenLoadRestoresRegisters : Prop :=
  ∀ (x : Reg) (s t u : State), s.mem.wf s.params → s.index.toNat + x.val ≤ 4095 → exec (.stRegs x) s = .next t →
    u.mem = t.mem → u.params = t.params → u.index = t.index →
    ∃ v, exec (.ldRegs x) u = .next v ∧ ∀ k : Reg, v.reg k = if k ≤ x then s.reg k else u.reg k

/-- Derived from 20_memory.md R41 and log 24. Two canonical memories that read alike at every address are equal data, so
states with equal reads can be compared. -/
def Obligations.CanonicalMemoryIsDeterminedByReads : Prop :=
  ∀ (p : Config.Params) (m m' : Memory), m.wf p → m'.wf p → (∀ a, m.read p a = m'.read p a) → m = m'

/-! ### The display -/

/-- 44_display.md R134. `00E0` leaves a buffer of all-zero pixels whatever it held, and changes nothing else. -/
def Obligations.ClearDisplayZeroesEveryPixel : Prop :=
  ∀ s : State, ∃ t, exec .cls s = .next t ∧ (∀ row col, t.pixel row col = false) ∧ UnchangedBut [] [.disp] s t

/-- Derived from 44_display.md R135 to R138, R142 (coordinates before the flag, and N = 0, are D14, log 22) and
43_index_and_memory.md R126 (I unchanged is D13, log 23). A draw in range inverts exactly the display pixels on which a 1 bit
of the sprite lands, leaves every other pixel, and sets register 15 to 1 exactly when one of those pixels was set before, else
to 0; nothing else changes. -/
def Obligations.DrawInvertsCoveredPixelsAndReportsCollision : Prop :=
  ∀ (x y : Reg) (n : Nibble) (s : State), (0 < n.toNat → s.index.toNat + n.toNat - 1 ≤ 4095) →
    ∃ t, exec (.drw x y n) s = .next t ∧
      (∀ row < 32, ∀ col < 64, (s.spriteSets x y n row col → t.pixel row col = !s.pixel row col) ∧
        (¬ s.spriteSets x y n row col → t.pixel row col = s.pixel row col)) ∧
      ((∃ row < 32, ∃ col < 64, s.spriteSets x y n row col ∧ s.pixel row col = true) → t.reg 15 = 1) ∧
      ((¬ ∃ row < 32, ∃ col < 64, s.spriteSets x y n row col ∧ s.pixel row col = true) → t.reg 15 = 0) ∧
      UnchangedBut [15] [.disp] s t

/-- Derived from 44_display.md R139 (I unchanged between the draws is D13, log 23; N = 0 is D14, log 22). Drawing the same sprite twice at the same place restores every pixel; on a blank display
the second draw reports a collision exactly when the sprite has a 1 bit. -/
def Obligations.DrawingTwiceRestoresTheDisplay : Prop :=
  ∀ (x y : Reg) (n : Nibble) (s t u : State), x ≠ 15 → y ≠ 15 → s.index.toNat + n.toNat ≤ 4096 →
    exec (.drw x y n) s = .next t → exec (.drw x y n) t = .next u →
    (∀ row < 32, ∀ col < 64, u.pixel row col = s.pixel row col) ∧
    ((∀ row < 32, ∀ col < 64, s.pixel row col = false) →
      (u.reg 15 = 1 ↔ ∃ r < n.toNat, s.byte (s.index.toNat + r) ≠ 0))

/-- Derived from 44_display.md R142 (D14, log 22). A draw of zero rows reads nothing, so it cannot fault whatever I holds; it
changes no pixel and clears register 15. -/
def Obligations.ZeroRowDrawOnlyClearsTheFlag : Prop :=
  ∀ (x y : Reg) (s : State), ∃ t, exec (.drw x y 0) s = .next t ∧ t.reg 15 = 0 ∧ UnchangedBut [15] [] s t

/-- Derived from 44_display.md R140 (D23). The read-out is the 2048 pixels in row-major order, each 0 or 1. -/
def Obligations.ReadOutIsTheDisplayRowMajor : Prop :=
  ∀ s : State, s.dispOut.length = 2048 ∧
    ∀ row < 32, ∀ col < 64, s.dispOut[row * 64 + col]? = some (if s.pixel row col then 1 else 0)

/-! ### Timers -/

/-- 45_timers.md R144, R145, R147. `Fx07` copies DT into register x, `Fx15` and `Fx18` copy register x into DT and ST; nothing
else changes. -/
def Obligations.TimerRegisterMoves : Prop :=
  ∀ (x : Reg) (s : State),
    (∃ t, exec (.ldVxDt x) s = .next t ∧ t.reg x = s.dt ∧ UnchangedBut [x] [] s t) ∧
    (∃ t, exec (.ldDtVx x) s = .next t ∧ t.dt = s.reg x ∧ UnchangedBut [] [.dt] s t) ∧
    (∃ t, exec (.ldStVx x) s = .next t ∧ t.st = s.reg x ∧ UnchangedBut [] [.st] s t)

/-! ### Reset and load -/

/-- Derived from 70_reset_and_hazards.md R173. Under any parameters the state after reset has every register, I, both timers,
sp, the stack, the display and the fault record zero (the record's fields: log 10), pc at 0x0200, FONT at 0x000 to 0x04F, zero
elsewhere, and cyc at CYC_RESET. MODEL'S CHOICE: the parameters stand in the state (log 2), and the machine's own reset state
is that of the default parameters (logs 3, 4, 5). -/
def Obligations.ResetValues : Prop :=
  (∀ p : Config.Params, let s := State.resetWith p
    (∀ r, s.reg r = 0) ∧ s.pc = 0x0200 ∧ s.index = 0 ∧ s.dt = 0 ∧ s.st = 0 ∧ s.sp.val = 0 ∧
    (∀ k : Fin 24, s.stack[k] = 0) ∧ (∀ row col, s.pixel row col = false) ∧ s.fault = ⟨false, 0, 0, 0, 0⟩ ∧
    (∀ k : Fin 80, s.byte k.val = p.font[k]) ∧ (∀ a, 80 ≤ a → s.byte a = 0) ∧ s.cyc = p.cycReset ∧ s.params = p) ∧
  State.reset = State.resetWith Config.Params.default

/-- Derived from 20_memory.md R49. Loading an image that fits writes its bytes from 0x200 on and changes nothing else. -/
def Obligations.LoadedImageStandsAtTheBaseOffset : Prop :=
  ∀ (s : State) (image : List Byte), s.mem.wf s.params → image.length ≤ 3584 →
    ∃ t, s.loadImage image = some t ∧
      (∀ k, (h : k < image.length) → t.byte (0x200 + k) = image[k]) ∧
      (∀ a, (a < 0x200 ∨ 0x200 + image.length ≤ a) → t.byte a = s.byte a) ∧
      UnchangedBut [] [.mem] s t ∧ t.mem.wf t.params

/-- Derived from 20_memory.md R50 (D4, log 13). An image of more than 3584 bytes is refused. -/
def Obligations.OverlongImageIsRefused : Prop :=
  ∀ (s : State) (image : List Byte), 3584 < image.length → s.loadImage image = none

/-! ### Whole-machine rules -/

/-- Derived from 10_state.md R15, R17, R19 to R23, R28 and 20_memory.md R40, R52 (that no access writes I is D13, log 23).
Whatever the instruction and the state, the execute phase writes no register and no other piece of state than the tables of
those rules list for it; in particular none writes cyc or the configuration, only `Fx33` and `Fx55` write memory, and of memory
only the bytes I to I + 2 and I to I + X that R40 lists, and only the five instructions of R19 write register 15 as a side
effect. -/
def Obligations.InstructionsWriteOnlyWhatTheTablesList : Prop :=
  ∀ (i : Instr) (s t : State), exec i s = .next t →
    UnchangedBut (regsWritten i) (partsWritten i) s t ∧
    (∀ x, i = .ldB x → ∀ a, (a < s.dataAddr 0 ∨ s.dataAddr 2 < a) → t.byte a = s.byte a) ∧
    (∀ x, i = .stRegs x → ∀ a, (a < s.dataAddr 0 ∨ s.dataAddr x.val < a) → t.byte a = s.byte a)

/-- Derived from 41_skips.md R98. An instruction other than the key skips and the random load does not depend on any input:
it does the same whatever the counters of draws select. -/
def Obligations.OtherInstructionsDependOnNoInput : Prop :=
  ∀ (i : Instr) (s t : State) (k r : Nat), (∀ x, i ≠ .skp x) → (∀ x, i ≠ .sknp x) → (∀ x nn, i ≠ .rnd x nn) →
    exec i s = .next t →
    exec i { s with keyDraws := k, rndDraws := r } = .next { t with keyDraws := k, rndDraws := r }

/-- Derived from 10_state.md R32, R33. The invariant holds after reset, under any legal parameters. -/
def Obligations.InvariantHoldsAtReset : Prop :=
  (∀ p : Config.Params, p.wf → Inv (State.resetWith p)) ∧ Inv State.reset

/-- Derived from 10_state.md R18, R32. Every step from a state that meets the invariant gives a state that meets it: pc stays
at most 0x10FE, live stack entries at most 0x1000, the divider below its bound, memory canonical and the fault record as
R152 leaves it. -/
def Obligations.EveryStepKeepsTheInvariant : Prop :=
  ∀ s t : State, Inv s → step s = .next t → Inv t

/-- Derived from 00_scope.md R9, 10_state.md R32 and 70_reset_and_hazards.md R174. From reset under any legal parameters, with
any image that fits, every run of any number of cycles goes on to a next state, and that state meets the invariant. -/
def Obligations.BootedRunsKeepTheInvariant : Prop :=
  ∀ (p : Config.Params) (image : List Byte) (s : State), p.wf → (State.resetWith p).loadImage image = some s →
    ∀ k, ∃ t, Host.Core.run Sys2Proof.core k s = .next t ∧ Inv t

/-- Derived from 10_state.md R24, R25 and 30_encoding.md R62. A run that reaches no fault goes through every cycle, and the
divider counter has counted each of them, modulo TIMER_DIVIDER; the configuration is still the one it started with. -/
def Obligations.SafeRunCountsEveryCycle : Prop :=
  ∀ (s : State) (k : Nat), Inv s → s.safeFor k →
    ∃ t, Host.Core.run Sys2Proof.core k s = .next t ∧ t.running ∧ t.params = s.params ∧
      t.cyc = (s.cyc + k) % s.params.timerDivider
end

