-- ==== Sys2Proof/Laws/Decode.lean ====
section
/-! SUPPORT. What each field of a packed word is, and that the fields of a word pack to it again. -/

namespace Sys2Proof

@[simp] theorem regOf_nibOf (r : Reg) : regOf (nibOf r) = r := rfl

@[simp] theorem nibOf_regOf (n : Nibble) : nibOf (regOf n) = n := rfl

/-! ### Fields of the three formats -/

@[simp] theorem fieldOp_packXNN (op : Nibble) (x : Reg) (nn : Byte) : fieldOp (packXNN op x nn) = op := by
  refine BitVec.eq_of_getLsbD_eq fun i hi => ?_
  simp only [fieldOp, packXNN, BitVec.getLsbD_append, BitVec.getLsbD_extractLsb']
  simp [hi, show ¬ (12 + i < 8) by omega, show ¬ (12 + i - 8 < 4) by omega, show 12 + i - 8 - 4 = i by omega]

@[simp] theorem fieldXNib_packXNN (op : Nibble) (x : Reg) (nn : Byte) : fieldXNib (packXNN op x nn) = nibOf x := by
  refine BitVec.eq_of_getLsbD_eq fun i hi => ?_
  simp only [fieldXNib, packXNN, BitVec.getLsbD_append, BitVec.getLsbD_extractLsb']
  simp [hi, show ¬ (8 + i < 8) by omega, show 8 + i - 8 = i by omega]

@[simp] theorem fieldX_packXNN (op : Nibble) (x : Reg) (nn : Byte) : fieldX (packXNN op x nn) = x := by simp [fieldX]

@[simp] theorem fieldNN_packXNN (op : Nibble) (x : Reg) (nn : Byte) : fieldNN (packXNN op x nn) = nn := by
  refine BitVec.eq_of_getLsbD_eq fun i hi => ?_
  simp only [fieldNN, packXNN, BitVec.getLsbD_append, BitVec.getLsbD_extractLsb']
  simp [hi]

@[simp] theorem fieldOp_packXYN (op : Nibble) (x : Reg) (y n : Nibble) : fieldOp (packXYN op x y n) = op := by
  refine BitVec.eq_of_getLsbD_eq fun i hi => ?_
  simp only [fieldOp, packXYN, BitVec.getLsbD_append, BitVec.getLsbD_extractLsb']
  simp [hi, show ¬ (12 + i < 4) by omega, show ¬ (12 + i - 4 < 4) by omega, show ¬ (12 + i - 4 - 4 < 4) by omega, show 12 + i - 4 - 4 - 4 = i by omega]

@[simp] theorem fieldXNib_packXYN (op : Nibble) (x : Reg) (y n : Nibble) : fieldXNib (packXYN op x y n) = nibOf x := by
  refine BitVec.eq_of_getLsbD_eq fun i hi => ?_
  simp only [fieldXNib, packXYN, BitVec.getLsbD_append, BitVec.getLsbD_extractLsb']
  simp [hi, show ¬ (8 + i < 4) by omega, show ¬ (8 + i - 4 < 4) by omega, show 8 + i - 4 - 4 = i by omega]

@[simp] theorem fieldX_packXYN (op : Nibble) (x : Reg) (y n : Nibble) : fieldX (packXYN op x y n) = x := by simp [fieldX]

@[simp] theorem fieldYNib_packXYN (op : Nibble) (x : Reg) (y n : Nibble) : fieldYNib (packXYN op x y n) = y := by
  refine BitVec.eq_of_getLsbD_eq fun i hi => ?_
  simp only [fieldYNib, packXYN, BitVec.getLsbD_append, BitVec.getLsbD_extractLsb']
  simp [hi, show ¬ (4 + i < 4) by omega, show 4 + i - 4 = i by omega]

@[simp] theorem fieldY_packXYN (op : Nibble) (x : Reg) (y n : Nibble) : fieldY (packXYN op x y n) = regOf y := by simp [fieldY]

@[simp] theorem fieldN_packXYN (op : Nibble) (x : Reg) (y n : Nibble) : fieldN (packXYN op x y n) = n := by
  refine BitVec.eq_of_getLsbD_eq fun i hi => ?_
  simp only [fieldN, packXYN, BitVec.getLsbD_append, BitVec.getLsbD_extractLsb']
  simp [hi]

@[simp] theorem fieldNN_packXYN (op : Nibble) (x : Reg) (y n : Nibble) : fieldNN (packXYN op x y n) = y ++ n := by
  refine BitVec.eq_of_getLsbD_eq fun i hi => ?_
  simp only [fieldNN, packXYN, BitVec.getLsbD_append, BitVec.getLsbD_extractLsb']
  by_cases h : i < 4
  · simp [h, hi]
  · simp [h, hi, show i - 4 < 4 by omega]

@[simp] theorem fieldOp_packNNN (op : Nibble) (nnn : Addr12) : fieldOp (packNNN op nnn) = op := by
  refine BitVec.eq_of_getLsbD_eq fun i hi => ?_
  simp only [fieldOp, packNNN, BitVec.getLsbD_append, BitVec.getLsbD_extractLsb']
  simp [hi, show ¬ (12 + i < 12) by omega, show 12 + i - 12 = i by omega]

@[simp] theorem fieldNNN_packNNN (op : Nibble) (nnn : Addr12) : fieldNNN (packNNN op nnn) = nnn := by
  refine BitVec.eq_of_getLsbD_eq fun i hi => ?_
  simp only [fieldNNN, packNNN, BitVec.getLsbD_append, BitVec.getLsbD_extractLsb']
  simp [hi]

/-! ### A word is its fields, packed -/

theorem packXNN_fields (w : Word) : packXNN (fieldOp w) (fieldX w) (fieldNN w) = w := by
  refine BitVec.eq_of_getLsbD_eq fun i hi => ?_
  simp only [packXNN, fieldOp, fieldX, fieldXNib, fieldNN, nibOf_regOf, BitVec.getLsbD_append, BitVec.getLsbD_extractLsb']
  by_cases h : i < 8
  · simp [h]
  · by_cases h' : i - 8 < 4
    · simp [h, h', show 8 + (i - 8) = i by omega]
    · simp [h, h', show i - 8 - 4 < 4 by omega, show 12 + (i - 8 - 4) = i by omega]

theorem packXYN_fields (w : Word) : packXYN (fieldOp w) (fieldX w) (fieldYNib w) (fieldN w) = w := by
  refine BitVec.eq_of_getLsbD_eq fun i hi => ?_
  simp only [packXYN, fieldOp, fieldX, fieldXNib, fieldYNib, fieldN, nibOf_regOf, BitVec.getLsbD_append, BitVec.getLsbD_extractLsb']
  by_cases h : i < 4
  · simp [h]
  · by_cases h' : i - 4 < 4
    · simp [h, h', show 4 + (i - 4) = i by omega]
    · by_cases h'' : i - 4 - 4 < 4
      · simp [h, h', h'', show 8 + (i - 4 - 4) = i by omega]
      · simp [h, h', h'', show i - 4 - 4 - 4 < 4 by omega, show 12 + (i - 4 - 4 - 4) = i by omega]

theorem packNNN_fields (w : Word) : packNNN (fieldOp w) (fieldNNN w) = w := by
  refine BitVec.eq_of_getLsbD_eq fun i hi => ?_
  simp only [packNNN, fieldOp, fieldNNN, BitVec.getLsbD_append, BitVec.getLsbD_extractLsb']
  by_cases h : i < 12
  · simp [h]
  · simp [h, show i - 12 < 4 by omega, show 12 + (i - 12) = i by omega]

/-- The two bytes of a word make it again (R54). -/
@[simp] theorem wordOf_bytes (w : Word) : wordOf (hiByte w) (loByte w) = w := by
  refine BitVec.eq_of_getLsbD_eq fun i hi => ?_
  simp only [wordOf, hiByte, loByte, BitVec.getLsbD_append, BitVec.getLsbD_extractLsb']
  by_cases h : i < 8
  · simp [h]
  · simp [h, show i - 8 < 8 by omega, show 8 + (i - 8) = i by omega]

/-! ### The three masks of the opcode table (R69) -/

/-- The sixteen values of a nibble, to split on. -/
theorem nibble_cases : ∀ n : Nibble, n = 0x0 ∨ n = 0x1 ∨ n = 0x2 ∨ n = 0x3 ∨ n = 0x4 ∨ n = 0x5 ∨ n = 0x6 ∨ n = 0x7 ∨ n = 0x8 ∨
    n = 0x9 ∨ n = 0xA ∨ n = 0xB ∨ n = 0xC ∨ n = 0xD ∨ n = 0xE ∨ n = 0xF := by decide

/-- Mask F000 leaves the first nibble. -/
theorem and_F000 (w : Word) : w &&& 0xF000 = packNNN (fieldOp w) 0 := by
  refine BitVec.eq_of_getLsbD_eq fun i hi => ?_
  simp only [packNNN, fieldOp, BitVec.getLsbD_append, BitVec.getLsbD_extractLsb', BitVec.getLsbD_and]
  interval_cases i <;> simp

/-- Mask F00F leaves the first and the last nibble. -/
theorem and_F00F (w : Word) : w &&& 0xF00F = packXYN (fieldOp w) 0 0 (fieldN w) := by
  refine BitVec.eq_of_getLsbD_eq fun i hi => ?_
  simp only [packXYN, fieldOp, fieldN, nibOf, BitVec.getLsbD_append, BitVec.getLsbD_extractLsb', BitVec.getLsbD_and]
  interval_cases i <;> simp

/-- Mask F0FF leaves the first nibble and the low byte. -/
theorem and_F0FF (w : Word) : w &&& 0xF0FF = packXNN (fieldOp w) 0 (fieldNN w) := by
  refine BitVec.eq_of_getLsbD_eq fun i hi => ?_
  simp only [packXNN, fieldOp, fieldNN, nibOf, BitVec.getLsbD_append, BitVec.getLsbD_extractLsb', BitVec.getLsbD_and]
  interval_cases i <;> simp

end Sys2Proof
end

