-- ==== Sys2Proof/Laws/Draw.lean ====
section
/-! SUPPORT. What drawing does to the display and the collision flag, for one pixel, one sprite row and a whole sprite. -/

namespace Sys2Proof.Machine

open Sys2Proof.Config

/-- Inverting a pixel inverts that pixel and leaves every other. -/
theorem pixelOf_flipPixel (d : Vector (BitVec dispW) dispH) {row col r c : Nat} (hrow : row < 32) (hc : c < 64) :
    pixelOf (flipPixel d row col) r c = (pixelOf d r c ^^ decide (r = row ∧ c = col)) := by
  simp only [pixelOf, flipPixel, dif_pos (show row < dispH from hrow)]
  by_cases hr : r < dispH
  · rw [dif_pos hr, dif_pos hr, Vector.getElem_set]
    by_cases h : row = r
    · subst h
      by_cases hcc : c = col
      · subst hcc; simp [show c < 64 from hc]
      · simp [BitVec.getLsbD_twoPow, hcc, Ne.symm hcc]
    · simp [h, Ne.symm h]
  · have : r ≠ row := by rintro rfl; exact hr hrow
    rw [dif_neg hr, dif_neg hr]; simp [this]

/-- One target pixel: it is inverted under a sprite bit of 1, and that is a collision when it was set. -/
theorem pixelOf_drawPixel (k : Canvas) {row col r c : Nat} (b : Bool) (hrow : row < 32) (hc : c < 64) :
    pixelOf (drawPixel k row col b).1 r c = (pixelOf k.1 r c ^^ (b && decide (r = row ∧ c = col))) ∧
    (drawPixel k row col b).2 = (k.2 || (b && pixelOf k.1 row col)) := by
  cases b
  · simp [drawPixel]
  · simp [drawPixel, pixelOf_flipPixel k.1 hrow hc]

/-- From one canvas to another, exactly the pixels of a set are inverted, and the flag records whether one of them was set. -/
structure Inverted (cov : Nat → Nat → Prop) (k q : Canvas) : Prop where
  on : ∀ r c, c < 64 → cov r c → pixelOf q.1 r c = !pixelOf k.1 r c
  off : ∀ r c, c < 64 → ¬ cov r c → pixelOf q.1 r c = pixelOf k.1 r c
  flag : q.2 = true ↔ k.2 = true ∨ ∃ r c, c < 64 ∧ cov r c ∧ pixelOf k.1 r c = true

/-- Nothing drawn. -/
theorem Inverted.nothing (k : Canvas) : Inverted (fun _ _ => False) k k :=
  ⟨by simp, by simp, by simp⟩

/-- Two draws on disjoint sets of pixels make one on their union: the order of the draw loops does not matter (R137). -/
theorem Inverted.trans {A B : Nat → Nat → Prop} {k p q : Canvas} (h : Inverted A k p) (h' : Inverted B p q)
    (hd : ∀ r c, A r c → ¬ B r c) : Inverted (fun r c => A r c ∨ B r c) k q := by
  refine ⟨fun r c hc hAB => ?_, fun r c hc hAB => ?_, ?_⟩
  · rcases hAB with hA | hB
    · rw [h'.off r c hc (hd r c hA), h.on r c hc hA]
    · rw [h'.on r c hc hB, h.off r c hc (fun hA => hd r c hA hB)]
  · rw [h'.off r c hc (fun hB => hAB (.inr hB)), h.off r c hc (fun hA => hAB (.inl hA))]
  · rw [h'.flag, h.flag]
    constructor
    · rintro ((hk | ⟨r, c, hc, hA, hp⟩) | ⟨r, c, hc, hB, hp⟩)
      · exact .inl hk
      · exact .inr ⟨r, c, hc, .inl hA, hp⟩
      · exact .inr ⟨r, c, hc, .inr hB, by rwa [h.off r c hc (fun hA => hd r c hA hB)] at hp⟩
    · rintro (hk | ⟨r, c, hc, hA | hB, hp⟩)
      · exact .inl (.inl hk)
      · exact .inl (.inr ⟨r, c, hc, hA, hp⟩)
      · exact .inr ⟨r, c, hc, hB, by rwa [h.off r c hc (fun hA => hd r c hA hB)]⟩

/-- A set of pixels may be described in another way. -/
theorem Inverted.congr {A B : Nat → Nat → Prop} {k q : Canvas} (h : Inverted A k q) (hAB : ∀ r c, A r c ↔ B r c) :
    Inverted B k q := by
  have : A = B := by funext r c; exact propext (hAB r c)
  exact this ▸ h

/-- One target pixel inverts itself alone, under a sprite bit of 1. -/
theorem inverted_drawPixel (k : Canvas) {row col : Nat} (b : Bool) (hrow : row < 32) (hcol : col < 64) :
    Inverted (fun r c => r = row ∧ c = col ∧ b = true) k (drawPixel k row col b) := by
  refine ⟨?_, ?_, ?_⟩
  · rintro r c hc ⟨rfl, rfl, rfl⟩
    simp [(pixelOf_drawPixel k (r := r) (col := c) true hrow hc).1]
  · intro r c hc h
    rw [(pixelOf_drawPixel k (r := r) (col := col) b hrow hc).1]
    have : (b && decide (r = row ∧ c = col)) = false := by
      cases b <;> simp_all
    rw [this, Bool.xor_false]
  · rw [(pixelOf_drawPixel k (r := row) (col := col) b hrow hcol).2]
    cases b
    · simp
    · simp only [Bool.true_and, Bool.or_eq_true]
      constructor
      · rintro (h | h)
        · exact .inl h
        · exact .inr ⟨row, col, hcol, ⟨rfl, rfl, trivial⟩, h⟩
      · rintro (h | ⟨r, c, _, ⟨rfl, rfl, _⟩, h⟩)
        · exact .inl h
        · exact .inr h

/-- One sprite row inverts the pixels under its 1 bits (R136). -/
theorem inverted_drawRow (k : Canvas) (vx : Nat) (b : Byte) {row : Nat} (hrow : row < 32) :
    Inverted (fun r c => r = row ∧ ∃ j < 8, c = (vx + j) % 64 ∧ b.getLsbD (7 - j) = true) k (drawRow k vx row b) := by
  have key : ∀ m ≤ 8, Inverted (fun r c => r = row ∧ ∃ j < m, c = (vx + j) % 64 ∧ b.getLsbD (7 - j) = true) k
      ((List.range m).foldl (fun k c => drawPixel k row ((vx + c) % dispW) (b.getLsbD (7 - c))) k) := by
    intro m
    induction m with
    | zero => intro _; simpa using (Inverted.nothing k)
    | succ m ih =>
      intro hm
      rw [List.range_succ, List.foldl_append]
      have hcol : (vx + m) % 64 < 64 := Nat.mod_lt _ (by decide)
      refine ((ih (by omega)).trans (inverted_drawPixel _ (b.getLsbD (7 - m)) hrow hcol) ?_).congr ?_
      · rintro r c ⟨_, j, hj, hc, _⟩ ⟨_, hc', _⟩
        have : j = m := by omega
        omega
      · intro r c
        constructor
        · rintro (⟨hr, j, hj, h⟩ | ⟨hr, hc, hb⟩)
          · exact ⟨hr, j, by omega, h⟩
          · exact ⟨hr, m, by omega, hc, hb⟩
        · rintro ⟨hr, j, hj, hc, hb⟩
          rcases Nat.lt_succ_iff_lt_or_eq.1 hj with h | rfl
          · exact .inl ⟨hr, j, h, hc, hb⟩
          · exact .inr ⟨hr, hc, hb⟩
  exact key 8 (Nat.le_refl _)

/-- The rows of a sprite of at most 16 rows invert the pixels under its 1 bits (R136, R137). -/
theorem inverted_drawRows (bs : List Byte) (k : Canvas) (vx vy r0 : Nat) (hlen : bs.length ≤ 16) :
    Inverted (fun r c => ∃ i, ∃ h : i < bs.length, r = (vy + (r0 + i)) % 32 ∧
      ∃ j < 8, c = (vx + j) % 64 ∧ bs[i].getLsbD (7 - j) = true) k (drawRows k vx vy r0 bs) := by
  induction bs generalizing k r0 with
  | nil => simpa [drawRows] using (Inverted.nothing k)
  | cons b bs ih =>
    simp only [List.length_cons] at hlen
    have hrow : (vy + r0) % 32 < 32 := Nat.mod_lt _ (by decide)
    refine ((inverted_drawRow k vx b hrow).trans (ih (drawRow k vx ((vy + r0) % dispH) b) (r0 + 1) (by omega)) ?_).congr ?_
    · rintro r c ⟨hr, _⟩ ⟨i, hi, hr', _⟩
      omega
    · intro r c
      constructor
      · rintro (⟨hr, h⟩ | ⟨i, hi, hr, h⟩)
        · exact ⟨0, by simp, by simpa using hr, by simpa using h⟩
        · exact ⟨i + 1, by simpa using hi, by rw [hr]; congr 1; omega, by simpa using h⟩
      · rintro ⟨i, hi, hr, h⟩
        cases i with
        | zero => exact .inl ⟨by simpa using hr, by simpa using h⟩
        | succ i =>
          exact .inr ⟨i, by simpa using hi, by rw [hr]; congr 1; omega, by simpa using h⟩

/-- A sprite has as many bytes as it is asked for. -/
@[simp] theorem State.sprite_length (s : State) (n : Nat) : (s.sprite n).length = n := by simp [State.sprite]

/-- A whole draw inverts the display pixels on which a sprite bit of 1 lands (R136). -/
theorem State.inverted_drawn (s : State) (x y : Reg) (n : Nibble) :
    Inverted (fun r c => s.spriteSets x y n r c) (s.disp, false) (s.drawn x y n) := by
  have hn := n.isLt
  refine (inverted_drawRows (s.sprite n.toNat) (s.disp, false) (s.reg x).toNat (s.reg y).toNat 0
    (by rw [State.sprite_length]; omega)).congr fun r c => ?_
  simp only [State.spriteSets, State.sprite_length, Nat.zero_add]
  constructor
  · rintro ⟨i, hi, hr, j, hj, hc, hb⟩
    exact ⟨i, hi, j, hj, hr, hc, by simpa [State.sprite, State.dataAddr] using hb⟩
  · rintro ⟨i, hi, j, hj, hr, hc, hb⟩
    exact ⟨i, hi, hr, j, hj, hc, by simpa [State.sprite, State.dataAddr] using hb⟩

end Sys2Proof.Machine
end

