-- ==== Sys2Proof/Laws/Memory.lean ====
section
/-! SUPPORT. The laws of memory: what a read sees after a write, that every operation keeps the canonical form, and that
canonical memories with equal reads are equal data. -/

namespace Sys2Proof.Machine

open Sys2Proof.Config

/-- A read after a write gives the written value at that address and the old value at every other. -/
theorem Memory.read_write (p : Params) (m : Memory) (a b : Nat) (v : Byte) (hm : m.Pairwise (fun c d => c.1 < d.1)) :
    (m.write p a v).read p b = if b = a then v else m.read p b := by
  induction m with
  | nil =>
    by_cases hv : v = resetByte p a <;> by_cases hb : b = a <;>
      simp_all [Memory.write, Memory.read, eq_comm]
  | cons c m ih =>
    obtain ⟨k, w⟩ := c
    have hk := (List.pairwise_cons.1 hm).1
    have ih := ih (List.pairwise_cons.1 hm).2
    have absent : ∀ (l : Memory) (e : Nat), (∀ d ∈ l, e < d.1) → l.read p e = resetByte p e := by
      intro l e hl
      induction l with
      | nil => rfl
      | cons d l ihl =>
        have h1 := hl d (by simp)
        simp only [Memory.read]
        rw [if_neg (by omega), ihl (fun d hd => hl d (by simp [hd]))]
    simp only [Memory.write]
    split
    · rename_i hak
      split
      · rename_i hv
        by_cases hb : b = a
        · subst hb
          have := absent ((k, w) :: m) b (by
            intro d hd
            rcases List.mem_cons.1 hd with rfl | hd
            · exact hak
            · exact Nat.lt_trans hak (hk d hd))
          simp [this, hv]
        · simp [hb]
      · by_cases hb : b = a
        · subst hb; simp [Memory.read]
        · simp [Memory.read, hb, Ne.symm hb]
    · split
      · rename_i hka
        subst hka
        split
        · rename_i hv
          by_cases hb : b = k
          · subst hb; simp [absent m b hk, hv]
          · simp [Memory.read, hb, Ne.symm hb]
        · by_cases hb : b = k
          · subst hb; simp [Memory.read]
          · simp [Memory.read, hb, Ne.symm hb]
      · rename_i hka
        simp only [Memory.read, ih]
        by_cases hb : b = a
        · subst hb; simp [hka]
        · simp [hb]

/-- A write leaves every other address as it was, whatever the memory. -/
theorem Memory.read_write_of_ne (p : Params) (m : Memory) (a b : Nat) (v : Byte) (h : b ≠ a) :
    (m.write p a v).read p b = m.read p b := by
  induction m with
  | nil => simp only [Memory.write]; split <;> simp [Memory.read, Ne.symm h]
  | cons c m ih =>
    obtain ⟨k, w⟩ := c
    simp only [Memory.write]
    split
    · split <;> simp [Memory.read, Ne.symm h]
    · split
      · rename_i hk
        split <;> simp [Memory.read, Ne.symm h, hk]
      · simp only [Memory.read, ih]

/-- The entries of a written memory are old ones, or the written one. -/
theorem Memory.mem_write (p : Params) (m : Memory) (a : Nat) (v : Byte) (c : Host.Cell) (hc : c ∈ m.write p a v) :
    c ∈ m ∨ (c = (a, v) ∧ v ≠ resetByte p a) := by
  induction m with
  | nil => simp only [Memory.write] at hc; split at hc <;> simp_all
  | cons d m ih =>
    obtain ⟨k, w⟩ := d
    simp only [Memory.write] at hc
    split at hc
    · split at hc <;> simp_all
      tauto
    · split at hc
      · split at hc <;> simp_all
        tauto
      · rcases List.mem_cons.1 hc with rfl | hc
        · simp
        · rcases ih hc with h | h
          · simp [h]
          · exact .inr h

/-- A write keeps the addresses strictly rising. -/
theorem Memory.write_sorted (p : Params) (m : Memory) (a : Nat) (v : Byte) (hm : m.Pairwise (fun c d => c.1 < d.1)) :
    (m.write p a v).Pairwise (fun c d => c.1 < d.1) := by
  induction m with
  | nil => simp only [Memory.write]; split <;> simp
  | cons d m ih =>
    obtain ⟨k, w⟩ := d
    have hk := (List.pairwise_cons.1 hm).1
    have hm' := (List.pairwise_cons.1 hm).2
    simp only [Memory.write]
    split
    · rename_i hak
      split
      · exact hm
      · refine List.pairwise_cons.2 ⟨?_, hm⟩
        intro d hd
        rcases List.mem_cons.1 hd with rfl | hd
        · exact hak
        · exact Nat.lt_trans hak (hk d hd)
    · split
      · rename_i hka
        subst hka
        split
        · exact hm'
        · exact List.pairwise_cons.2 ⟨hk, hm'⟩
      · rename_i h1 h2
        refine List.pairwise_cons.2 ⟨?_, ih hm'⟩
        intro d hd
        rcases Memory.mem_write p m a v d hd with h | ⟨rfl, _⟩
        · exact hk d h
        · show k < a
          omega

/-- A write inside the 4096 bytes keeps the canonical form. -/
theorem Memory.write_wf (p : Params) (m : Memory) (a : Nat) (v : Byte) (hm : m.wf p) (ha : a < memSize) :
    (m.write p a v).wf p := by
  refine ⟨Memory.write_sorted p m a v hm.1, ?_⟩
  intro c hc
  rcases Memory.mem_write p m a v c hc with h | ⟨rfl, hv⟩
  · exact hm.2 c h
  · exact ⟨ha, hv⟩

/-- Writing bytes at ascending addresses keeps the canonical form, when they stay inside the 4096 bytes. -/
theorem Memory.writeBytes_wf (p : Params) (vs : List Byte) (m : Memory) (base : Nat) (hm : m.wf p)
    (hb : base + vs.length ≤ memSize) : (m.writeBytes p base vs).wf p := by
  induction vs generalizing m base with
  | nil => exact hm
  | cons v vs ih =>
    simp only [List.length_cons] at hb
    exact ih _ _ (Memory.write_wf p m base v hm (by omega)) (by omega)

/-- Writing bytes at ascending addresses keeps the addresses rising. -/
theorem Memory.writeBytes_sorted (p : Params) (vs : List Byte) (m : Memory) (base : Nat)
    (hm : m.Pairwise (fun c d => c.1 < d.1)) : (m.writeBytes p base vs).Pairwise (fun c d => c.1 < d.1) := by
  induction vs generalizing m base with
  | nil => exact hm
  | cons v vs ih => exact ih _ _ (Memory.write_sorted p m base v hm)

/-- A read after writing bytes at a base: the byte of the list at that offset, else the old byte. -/
theorem Memory.read_writeBytes (p : Params) (vs : List Byte) (m : Memory) (base b : Nat)
    (hm : m.Pairwise (fun c d => c.1 < d.1)) :
    (m.writeBytes p base vs).read p b =
      if h : base ≤ b ∧ b - base < vs.length then vs[b - base] else m.read p b := by
  induction vs generalizing m base with
  | nil => simp [Memory.writeBytes]
  | cons v vs ih =>
    rw [Memory.writeBytes, ih _ _ (Memory.write_sorted p m base v hm)]
    by_cases h : base + 1 ≤ b ∧ b - (base + 1) < vs.length
    · rw [dif_pos h, dif_pos (by simp only [List.length_cons]; omega)]
      have : b - base = (b - (base + 1)) + 1 := by omega
      simp [this]
    · rw [dif_neg h, Memory.read_write p m base b v hm]
      by_cases hb : b = base
      · subst hb; simp
      · rw [if_neg hb, dif_neg (by simp only [List.length_cons]; omega)]

/-- Writing bytes at a base leaves every address outside them as it was, whatever the memory. -/
theorem Memory.read_writeBytes_of_outside (p : Params) (vs : List Byte) (m : Memory) (base b : Nat)
    (h : b < base ∨ base + vs.length ≤ b) : (m.writeBytes p base vs).read p b = m.read p b := by
  induction vs generalizing m base with
  | nil => rfl
  | cons v vs ih =>
    simp only [List.length_cons] at h
    rw [Memory.writeBytes, ih _ _ (by omega), Memory.read_write_of_ne p m base b v (by omega)]

/-- The reset memory has the canonical form. -/
theorem Memory.reset_wf (p : Params) : (State.resetWith p).mem.wf p := by simp [State.resetWith, Memory.wf]

end Sys2Proof.Machine
end

