-- ==== Sys2Proof/Laws/State.lean ====
section
/-! SUPPORT. One lemma per field per update of the state, true by rfl, so that no later proof unfolds a record update; and
what the register and byte reads see after each update. -/

namespace Sys2Proof.Machine

open Sys2Proof.Config

/-! ### setReg -/

@[simp] theorem State.setReg_regs (s : State) (x : Reg) (v : Byte) : (s.setReg x v).regs = s.regs.set x v := rfl
@[simp] theorem State.setReg_pc (s : State) (x : Reg) (v : Byte) : (s.setReg x v).pc = s.pc := rfl
@[simp] theorem State.setReg_index (s : State) (x : Reg) (v : Byte) : (s.setReg x v).index = s.index := rfl
@[simp] theorem State.setReg_dt (s : State) (x : Reg) (v : Byte) : (s.setReg x v).dt = s.dt := rfl
@[simp] theorem State.setReg_st (s : State) (x : Reg) (v : Byte) : (s.setReg x v).st = s.st := rfl
@[simp] theorem State.setReg_stack (s : State) (x : Reg) (v : Byte) : (s.setReg x v).stack = s.stack := rfl
@[simp] theorem State.setReg_sp (s : State) (x : Reg) (v : Byte) : (s.setReg x v).sp = s.sp := rfl
@[simp] theorem State.setReg_mem (s : State) (x : Reg) (v : Byte) : (s.setReg x v).mem = s.mem := rfl
@[simp] theorem State.setReg_disp (s : State) (x : Reg) (v : Byte) : (s.setReg x v).disp = s.disp := rfl
@[simp] theorem State.setReg_cyc (s : State) (x : Reg) (v : Byte) : (s.setReg x v).cyc = s.cyc := rfl
@[simp] theorem State.setReg_fault (s : State) (x : Reg) (v : Byte) : (s.setReg x v).fault = s.fault := rfl
@[simp] theorem State.setReg_rndDraws (s : State) (x : Reg) (v : Byte) : (s.setReg x v).rndDraws = s.rndDraws := rfl
@[simp] theorem State.setReg_keyDraws (s : State) (x : Reg) (v : Byte) : (s.setReg x v).keyDraws = s.keyDraws := rfl
@[simp] theorem State.setReg_params (s : State) (x : Reg) (v : Byte) : (s.setReg x v).params = s.params := rfl
@[simp] theorem State.setReg_byte (s : State) (x : Reg) (v : Byte) (a' : Nat) : (s.setReg x v).byte a' = s.byte a' := rfl

/-! ### setPc -/

@[simp] theorem State.setPc_regs (s : State) (v : Word) : (s.setPc v).regs = s.regs := rfl
@[simp] theorem State.setPc_pc (s : State) (v : Word) : (s.setPc v).pc = v := rfl
@[simp] theorem State.setPc_index (s : State) (v : Word) : (s.setPc v).index = s.index := rfl
@[simp] theorem State.setPc_dt (s : State) (v : Word) : (s.setPc v).dt = s.dt := rfl
@[simp] theorem State.setPc_st (s : State) (v : Word) : (s.setPc v).st = s.st := rfl
@[simp] theorem State.setPc_stack (s : State) (v : Word) : (s.setPc v).stack = s.stack := rfl
@[simp] theorem State.setPc_sp (s : State) (v : Word) : (s.setPc v).sp = s.sp := rfl
@[simp] theorem State.setPc_mem (s : State) (v : Word) : (s.setPc v).mem = s.mem := rfl
@[simp] theorem State.setPc_disp (s : State) (v : Word) : (s.setPc v).disp = s.disp := rfl
@[simp] theorem State.setPc_cyc (s : State) (v : Word) : (s.setPc v).cyc = s.cyc := rfl
@[simp] theorem State.setPc_fault (s : State) (v : Word) : (s.setPc v).fault = s.fault := rfl
@[simp] theorem State.setPc_rndDraws (s : State) (v : Word) : (s.setPc v).rndDraws = s.rndDraws := rfl
@[simp] theorem State.setPc_keyDraws (s : State) (v : Word) : (s.setPc v).keyDraws = s.keyDraws := rfl
@[simp] theorem State.setPc_params (s : State) (v : Word) : (s.setPc v).params = s.params := rfl
@[simp] theorem State.setPc_reg (s : State) (v : Word) (y : Reg) : (s.setPc v).reg y = s.reg y := rfl
@[simp] theorem State.setPc_byte (s : State) (v : Word) (a' : Nat) : (s.setPc v).byte a' = s.byte a' := rfl

/-! ### setIndex -/

@[simp] theorem State.setIndex_regs (s : State) (v : Word) : (s.setIndex v).regs = s.regs := rfl
@[simp] theorem State.setIndex_pc (s : State) (v : Word) : (s.setIndex v).pc = s.pc := rfl
@[simp] theorem State.setIndex_index (s : State) (v : Word) : (s.setIndex v).index = v := rfl
@[simp] theorem State.setIndex_dt (s : State) (v : Word) : (s.setIndex v).dt = s.dt := rfl
@[simp] theorem State.setIndex_st (s : State) (v : Word) : (s.setIndex v).st = s.st := rfl
@[simp] theorem State.setIndex_stack (s : State) (v : Word) : (s.setIndex v).stack = s.stack := rfl
@[simp] theorem State.setIndex_sp (s : State) (v : Word) : (s.setIndex v).sp = s.sp := rfl
@[simp] theorem State.setIndex_mem (s : State) (v : Word) : (s.setIndex v).mem = s.mem := rfl
@[simp] theorem State.setIndex_disp (s : State) (v : Word) : (s.setIndex v).disp = s.disp := rfl
@[simp] theorem State.setIndex_cyc (s : State) (v : Word) : (s.setIndex v).cyc = s.cyc := rfl
@[simp] theorem State.setIndex_fault (s : State) (v : Word) : (s.setIndex v).fault = s.fault := rfl
@[simp] theorem State.setIndex_rndDraws (s : State) (v : Word) : (s.setIndex v).rndDraws = s.rndDraws := rfl
@[simp] theorem State.setIndex_keyDraws (s : State) (v : Word) : (s.setIndex v).keyDraws = s.keyDraws := rfl
@[simp] theorem State.setIndex_params (s : State) (v : Word) : (s.setIndex v).params = s.params := rfl
@[simp] theorem State.setIndex_reg (s : State) (v : Word) (y : Reg) : (s.setIndex v).reg y = s.reg y := rfl
@[simp] theorem State.setIndex_byte (s : State) (v : Word) (a' : Nat) : (s.setIndex v).byte a' = s.byte a' := rfl

/-! ### setDt -/

@[simp] theorem State.setDt_regs (s : State) (v : Byte) : (s.setDt v).regs = s.regs := rfl
@[simp] theorem State.setDt_pc (s : State) (v : Byte) : (s.setDt v).pc = s.pc := rfl
@[simp] theorem State.setDt_index (s : State) (v : Byte) : (s.setDt v).index = s.index := rfl
@[simp] theorem State.setDt_dt (s : State) (v : Byte) : (s.setDt v).dt = v := rfl
@[simp] theorem State.setDt_st (s : State) (v : Byte) : (s.setDt v).st = s.st := rfl
@[simp] theorem State.setDt_stack (s : State) (v : Byte) : (s.setDt v).stack = s.stack := rfl
@[simp] theorem State.setDt_sp (s : State) (v : Byte) : (s.setDt v).sp = s.sp := rfl
@[simp] theorem State.setDt_mem (s : State) (v : Byte) : (s.setDt v).mem = s.mem := rfl
@[simp] theorem State.setDt_disp (s : State) (v : Byte) : (s.setDt v).disp = s.disp := rfl
@[simp] theorem State.setDt_cyc (s : State) (v : Byte) : (s.setDt v).cyc = s.cyc := rfl
@[simp] theorem State.setDt_fault (s : State) (v : Byte) : (s.setDt v).fault = s.fault := rfl
@[simp] theorem State.setDt_rndDraws (s : State) (v : Byte) : (s.setDt v).rndDraws = s.rndDraws := rfl
@[simp] theorem State.setDt_keyDraws (s : State) (v : Byte) : (s.setDt v).keyDraws = s.keyDraws := rfl
@[simp] theorem State.setDt_params (s : State) (v : Byte) : (s.setDt v).params = s.params := rfl
@[simp] theorem State.setDt_reg (s : State) (v : Byte) (y : Reg) : (s.setDt v).reg y = s.reg y := rfl
@[simp] theorem State.setDt_byte (s : State) (v : Byte) (a' : Nat) : (s.setDt v).byte a' = s.byte a' := rfl

/-! ### setSt -/

@[simp] theorem State.setSt_regs (s : State) (v : Byte) : (s.setSt v).regs = s.regs := rfl
@[simp] theorem State.setSt_pc (s : State) (v : Byte) : (s.setSt v).pc = s.pc := rfl
@[simp] theorem State.setSt_index (s : State) (v : Byte) : (s.setSt v).index = s.index := rfl
@[simp] theorem State.setSt_dt (s : State) (v : Byte) : (s.setSt v).dt = s.dt := rfl
@[simp] theorem State.setSt_st (s : State) (v : Byte) : (s.setSt v).st = v := rfl
@[simp] theorem State.setSt_stack (s : State) (v : Byte) : (s.setSt v).stack = s.stack := rfl
@[simp] theorem State.setSt_sp (s : State) (v : Byte) : (s.setSt v).sp = s.sp := rfl
@[simp] theorem State.setSt_mem (s : State) (v : Byte) : (s.setSt v).mem = s.mem := rfl
@[simp] theorem State.setSt_disp (s : State) (v : Byte) : (s.setSt v).disp = s.disp := rfl
@[simp] theorem State.setSt_cyc (s : State) (v : Byte) : (s.setSt v).cyc = s.cyc := rfl
@[simp] theorem State.setSt_fault (s : State) (v : Byte) : (s.setSt v).fault = s.fault := rfl
@[simp] theorem State.setSt_rndDraws (s : State) (v : Byte) : (s.setSt v).rndDraws = s.rndDraws := rfl
@[simp] theorem State.setSt_keyDraws (s : State) (v : Byte) : (s.setSt v).keyDraws = s.keyDraws := rfl
@[simp] theorem State.setSt_params (s : State) (v : Byte) : (s.setSt v).params = s.params := rfl
@[simp] theorem State.setSt_reg (s : State) (v : Byte) (y : Reg) : (s.setSt v).reg y = s.reg y := rfl
@[simp] theorem State.setSt_byte (s : State) (v : Byte) (a' : Nat) : (s.setSt v).byte a' = s.byte a' := rfl

/-! ### setMem -/

@[simp] theorem State.setMem_regs (s : State) (m : Memory) : (s.setMem m).regs = s.regs := rfl
@[simp] theorem State.setMem_pc (s : State) (m : Memory) : (s.setMem m).pc = s.pc := rfl
@[simp] theorem State.setMem_index (s : State) (m : Memory) : (s.setMem m).index = s.index := rfl
@[simp] theorem State.setMem_dt (s : State) (m : Memory) : (s.setMem m).dt = s.dt := rfl
@[simp] theorem State.setMem_st (s : State) (m : Memory) : (s.setMem m).st = s.st := rfl
@[simp] theorem State.setMem_stack (s : State) (m : Memory) : (s.setMem m).stack = s.stack := rfl
@[simp] theorem State.setMem_sp (s : State) (m : Memory) : (s.setMem m).sp = s.sp := rfl
@[simp] theorem State.setMem_mem (s : State) (m : Memory) : (s.setMem m).mem = m := rfl
@[simp] theorem State.setMem_disp (s : State) (m : Memory) : (s.setMem m).disp = s.disp := rfl
@[simp] theorem State.setMem_cyc (s : State) (m : Memory) : (s.setMem m).cyc = s.cyc := rfl
@[simp] theorem State.setMem_fault (s : State) (m : Memory) : (s.setMem m).fault = s.fault := rfl
@[simp] theorem State.setMem_rndDraws (s : State) (m : Memory) : (s.setMem m).rndDraws = s.rndDraws := rfl
@[simp] theorem State.setMem_keyDraws (s : State) (m : Memory) : (s.setMem m).keyDraws = s.keyDraws := rfl
@[simp] theorem State.setMem_params (s : State) (m : Memory) : (s.setMem m).params = s.params := rfl
@[simp] theorem State.setMem_reg (s : State) (m : Memory) (y : Reg) : (s.setMem m).reg y = s.reg y := rfl

/-! ### setByte -/

@[simp] theorem State.setByte_regs (s : State) (a : Nat) (v : Byte) : (s.setByte a v).regs = s.regs := rfl
@[simp] theorem State.setByte_pc (s : State) (a : Nat) (v : Byte) : (s.setByte a v).pc = s.pc := rfl
@[simp] theorem State.setByte_index (s : State) (a : Nat) (v : Byte) : (s.setByte a v).index = s.index := rfl
@[simp] theorem State.setByte_dt (s : State) (a : Nat) (v : Byte) : (s.setByte a v).dt = s.dt := rfl
@[simp] theorem State.setByte_st (s : State) (a : Nat) (v : Byte) : (s.setByte a v).st = s.st := rfl
@[simp] theorem State.setByte_stack (s : State) (a : Nat) (v : Byte) : (s.setByte a v).stack = s.stack := rfl
@[simp] theorem State.setByte_sp (s : State) (a : Nat) (v : Byte) : (s.setByte a v).sp = s.sp := rfl
@[simp] theorem State.setByte_mem (s : State) (a : Nat) (v : Byte) : (s.setByte a v).mem = s.mem.write s.params a v := rfl
@[simp] theorem State.setByte_disp (s : State) (a : Nat) (v : Byte) : (s.setByte a v).disp = s.disp := rfl
@[simp] theorem State.setByte_cyc (s : State) (a : Nat) (v : Byte) : (s.setByte a v).cyc = s.cyc := rfl
@[simp] theorem State.setByte_fault (s : State) (a : Nat) (v : Byte) : (s.setByte a v).fault = s.fault := rfl
@[simp] theorem State.setByte_rndDraws (s : State) (a : Nat) (v : Byte) : (s.setByte a v).rndDraws = s.rndDraws := rfl
@[simp] theorem State.setByte_keyDraws (s : State) (a : Nat) (v : Byte) : (s.setByte a v).keyDraws = s.keyDraws := rfl
@[simp] theorem State.setByte_params (s : State) (a : Nat) (v : Byte) : (s.setByte a v).params = s.params := rfl
@[simp] theorem State.setByte_reg (s : State) (a : Nat) (v : Byte) (y : Reg) : (s.setByte a v).reg y = s.reg y := rfl

/-! ### setDisp -/

@[simp] theorem State.setDisp_regs (s : State) (d : Vector (BitVec dispW) dispH) : (s.setDisp d).regs = s.regs := rfl
@[simp] theorem State.setDisp_pc (s : State) (d : Vector (BitVec dispW) dispH) : (s.setDisp d).pc = s.pc := rfl
@[simp] theorem State.setDisp_index (s : State) (d : Vector (BitVec dispW) dispH) : (s.setDisp d).index = s.index := rfl
@[simp] theorem State.setDisp_dt (s : State) (d : Vector (BitVec dispW) dispH) : (s.setDisp d).dt = s.dt := rfl
@[simp] theorem State.setDisp_st (s : State) (d : Vector (BitVec dispW) dispH) : (s.setDisp d).st = s.st := rfl
@[simp] theorem State.setDisp_stack (s : State) (d : Vector (BitVec dispW) dispH) : (s.setDisp d).stack = s.stack := rfl
@[simp] theorem State.setDisp_sp (s : State) (d : Vector (BitVec dispW) dispH) : (s.setDisp d).sp = s.sp := rfl
@[simp] theorem State.setDisp_mem (s : State) (d : Vector (BitVec dispW) dispH) : (s.setDisp d).mem = s.mem := rfl
@[simp] theorem State.setDisp_disp (s : State) (d : Vector (BitVec dispW) dispH) : (s.setDisp d).disp = d := rfl
@[simp] theorem State.setDisp_cyc (s : State) (d : Vector (BitVec dispW) dispH) : (s.setDisp d).cyc = s.cyc := rfl
@[simp] theorem State.setDisp_fault (s : State) (d : Vector (BitVec dispW) dispH) : (s.setDisp d).fault = s.fault := rfl
@[simp] theorem State.setDisp_rndDraws (s : State) (d : Vector (BitVec dispW) dispH) : (s.setDisp d).rndDraws = s.rndDraws := rfl
@[simp] theorem State.setDisp_keyDraws (s : State) (d : Vector (BitVec dispW) dispH) : (s.setDisp d).keyDraws = s.keyDraws := rfl
@[simp] theorem State.setDisp_params (s : State) (d : Vector (BitVec dispW) dispH) : (s.setDisp d).params = s.params := rfl
@[simp] theorem State.setDisp_reg (s : State) (d : Vector (BitVec dispW) dispH) (y : Reg) : (s.setDisp d).reg y = s.reg y := rfl
@[simp] theorem State.setDisp_byte (s : State) (d : Vector (BitVec dispW) dispH) (a' : Nat) : (s.setDisp d).byte a' = s.byte a' := rfl

/-! ### setCyc -/

@[simp] theorem State.setCyc_regs (s : State) (n : Nat) : (s.setCyc n).regs = s.regs := rfl
@[simp] theorem State.setCyc_pc (s : State) (n : Nat) : (s.setCyc n).pc = s.pc := rfl
@[simp] theorem State.setCyc_index (s : State) (n : Nat) : (s.setCyc n).index = s.index := rfl
@[simp] theorem State.setCyc_dt (s : State) (n : Nat) : (s.setCyc n).dt = s.dt := rfl
@[simp] theorem State.setCyc_st (s : State) (n : Nat) : (s.setCyc n).st = s.st := rfl
@[simp] theorem State.setCyc_stack (s : State) (n : Nat) : (s.setCyc n).stack = s.stack := rfl
@[simp] theorem State.setCyc_sp (s : State) (n : Nat) : (s.setCyc n).sp = s.sp := rfl
@[simp] theorem State.setCyc_mem (s : State) (n : Nat) : (s.setCyc n).mem = s.mem := rfl
@[simp] theorem State.setCyc_disp (s : State) (n : Nat) : (s.setCyc n).disp = s.disp := rfl
@[simp] theorem State.setCyc_cyc (s : State) (n : Nat) : (s.setCyc n).cyc = n := rfl
@[simp] theorem State.setCyc_fault (s : State) (n : Nat) : (s.setCyc n).fault = s.fault := rfl
@[simp] theorem State.setCyc_rndDraws (s : State) (n : Nat) : (s.setCyc n).rndDraws = s.rndDraws := rfl
@[simp] theorem State.setCyc_keyDraws (s : State) (n : Nat) : (s.setCyc n).keyDraws = s.keyDraws := rfl
@[simp] theorem State.setCyc_params (s : State) (n : Nat) : (s.setCyc n).params = s.params := rfl
@[simp] theorem State.setCyc_reg (s : State) (n : Nat) (y : Reg) : (s.setCyc n).reg y = s.reg y := rfl
@[simp] theorem State.setCyc_byte (s : State) (n : Nat) (a' : Nat) : (s.setCyc n).byte a' = s.byte a' := rfl

/-! ### raise -/

@[simp] theorem State.raise_regs (s : State) (c : Cause) (w a : Word) (b : BitVec 17) : (s.raise c w a b).regs = s.regs := rfl
@[simp] theorem State.raise_pc (s : State) (c : Cause) (w a : Word) (b : BitVec 17) : (s.raise c w a b).pc = s.pc := rfl
@[simp] theorem State.raise_index (s : State) (c : Cause) (w a : Word) (b : BitVec 17) : (s.raise c w a b).index = s.index := rfl
@[simp] theorem State.raise_dt (s : State) (c : Cause) (w a : Word) (b : BitVec 17) : (s.raise c w a b).dt = s.dt := rfl
@[simp] theorem State.raise_st (s : State) (c : Cause) (w a : Word) (b : BitVec 17) : (s.raise c w a b).st = s.st := rfl
@[simp] theorem State.raise_stack (s : State) (c : Cause) (w a : Word) (b : BitVec 17) : (s.raise c w a b).stack = s.stack := rfl
@[simp] theorem State.raise_sp (s : State) (c : Cause) (w a : Word) (b : BitVec 17) : (s.raise c w a b).sp = s.sp := rfl
@[simp] theorem State.raise_mem (s : State) (c : Cause) (w a : Word) (b : BitVec 17) : (s.raise c w a b).mem = s.mem := rfl
@[simp] theorem State.raise_disp (s : State) (c : Cause) (w a : Word) (b : BitVec 17) : (s.raise c w a b).disp = s.disp := rfl
@[simp] theorem State.raise_cyc (s : State) (c : Cause) (w a : Word) (b : BitVec 17) : (s.raise c w a b).cyc = s.cyc := rfl
@[simp] theorem State.raise_fault (s : State) (c : Cause) (w a : Word) (b : BitVec 17) : (s.raise c w a b).fault = ⟨true, c.code, w, a, b⟩ := rfl
@[simp] theorem State.raise_rndDraws (s : State) (c : Cause) (w a : Word) (b : BitVec 17) : (s.raise c w a b).rndDraws = s.rndDraws := rfl
@[simp] theorem State.raise_keyDraws (s : State) (c : Cause) (w a : Word) (b : BitVec 17) : (s.raise c w a b).keyDraws = s.keyDraws := rfl
@[simp] theorem State.raise_params (s : State) (c : Cause) (w a : Word) (b : BitVec 17) : (s.raise c w a b).params = s.params := rfl
@[simp] theorem State.raise_reg (s : State) (c : Cause) (w a : Word) (b : BitVec 17) (y : Reg) : (s.raise c w a b).reg y = s.reg y := rfl
@[simp] theorem State.raise_byte (s : State) (c : Cause) (w a : Word) (b : BitVec 17) (a' : Nat) : (s.raise c w a b).byte a' = s.byte a' := rfl

/-! ### raiseIn -/

@[simp] theorem State.raiseIn_regs (s : State) (i : Instr) (c : Cause) (b : BitVec 17) : (s.raiseIn i c b).regs = s.regs := rfl
@[simp] theorem State.raiseIn_pc (s : State) (i : Instr) (c : Cause) (b : BitVec 17) : (s.raiseIn i c b).pc = s.pc := rfl
@[simp] theorem State.raiseIn_index (s : State) (i : Instr) (c : Cause) (b : BitVec 17) : (s.raiseIn i c b).index = s.index := rfl
@[simp] theorem State.raiseIn_dt (s : State) (i : Instr) (c : Cause) (b : BitVec 17) : (s.raiseIn i c b).dt = s.dt := rfl
@[simp] theorem State.raiseIn_st (s : State) (i : Instr) (c : Cause) (b : BitVec 17) : (s.raiseIn i c b).st = s.st := rfl
@[simp] theorem State.raiseIn_stack (s : State) (i : Instr) (c : Cause) (b : BitVec 17) : (s.raiseIn i c b).stack = s.stack := rfl
@[simp] theorem State.raiseIn_sp (s : State) (i : Instr) (c : Cause) (b : BitVec 17) : (s.raiseIn i c b).sp = s.sp := rfl
@[simp] theorem State.raiseIn_mem (s : State) (i : Instr) (c : Cause) (b : BitVec 17) : (s.raiseIn i c b).mem = s.mem := rfl
@[simp] theorem State.raiseIn_disp (s : State) (i : Instr) (c : Cause) (b : BitVec 17) : (s.raiseIn i c b).disp = s.disp := rfl
@[simp] theorem State.raiseIn_cyc (s : State) (i : Instr) (c : Cause) (b : BitVec 17) : (s.raiseIn i c b).cyc = s.cyc := rfl
@[simp] theorem State.raiseIn_fault (s : State) (i : Instr) (c : Cause) (b : BitVec 17) : (s.raiseIn i c b).fault = ⟨true, c.code, encode i, s.pc - 2, b⟩ := rfl
@[simp] theorem State.raiseIn_rndDraws (s : State) (i : Instr) (c : Cause) (b : BitVec 17) : (s.raiseIn i c b).rndDraws = s.rndDraws := rfl
@[simp] theorem State.raiseIn_keyDraws (s : State) (i : Instr) (c : Cause) (b : BitVec 17) : (s.raiseIn i c b).keyDraws = s.keyDraws := rfl
@[simp] theorem State.raiseIn_params (s : State) (i : Instr) (c : Cause) (b : BitVec 17) : (s.raiseIn i c b).params = s.params := rfl
@[simp] theorem State.raiseIn_reg (s : State) (i : Instr) (c : Cause) (b : BitVec 17) (y : Reg) : (s.raiseIn i c b).reg y = s.reg y := rfl
@[simp] theorem State.raiseIn_byte (s : State) (i : Instr) (c : Cause) (b : BitVec 17) (a' : Nat) : (s.raiseIn i c b).byte a' = s.byte a' := rfl

/-! ### push -/

@[simp] theorem State.push_regs (s : State) (v : Word) (h : s.sp.val < stackDepth) : (s.push v h).regs = s.regs := rfl
@[simp] theorem State.push_pc (s : State) (v : Word) (h : s.sp.val < stackDepth) : (s.push v h).pc = s.pc := rfl
@[simp] theorem State.push_index (s : State) (v : Word) (h : s.sp.val < stackDepth) : (s.push v h).index = s.index := rfl
@[simp] theorem State.push_dt (s : State) (v : Word) (h : s.sp.val < stackDepth) : (s.push v h).dt = s.dt := rfl
@[simp] theorem State.push_st (s : State) (v : Word) (h : s.sp.val < stackDepth) : (s.push v h).st = s.st := rfl
@[simp] theorem State.push_stack (s : State) (v : Word) (h : s.sp.val < stackDepth) : (s.push v h).stack = s.stack.set s.sp.val v := rfl
@[simp] theorem State.push_sp (s : State) (v : Word) (h : s.sp.val < stackDepth) : (s.push v h).sp = ⟨s.sp.val + 1, Nat.succ_lt_succ h⟩ := rfl
@[simp] theorem State.push_mem (s : State) (v : Word) (h : s.sp.val < stackDepth) : (s.push v h).mem = s.mem := rfl
@[simp] theorem State.push_disp (s : State) (v : Word) (h : s.sp.val < stackDepth) : (s.push v h).disp = s.disp := rfl
@[simp] theorem State.push_cyc (s : State) (v : Word) (h : s.sp.val < stackDepth) : (s.push v h).cyc = s.cyc := rfl
@[simp] theorem State.push_fault (s : State) (v : Word) (h : s.sp.val < stackDepth) : (s.push v h).fault = s.fault := rfl
@[simp] theorem State.push_rndDraws (s : State) (v : Word) (h : s.sp.val < stackDepth) : (s.push v h).rndDraws = s.rndDraws := rfl
@[simp] theorem State.push_keyDraws (s : State) (v : Word) (h : s.sp.val < stackDepth) : (s.push v h).keyDraws = s.keyDraws := rfl
@[simp] theorem State.push_params (s : State) (v : Word) (h : s.sp.val < stackDepth) : (s.push v h).params = s.params := rfl
@[simp] theorem State.push_reg (s : State) (v : Word) (h : s.sp.val < stackDepth) (y : Reg) : (s.push v h).reg y = s.reg y := rfl
@[simp] theorem State.push_byte (s : State) (v : Word) (h : s.sp.val < stackDepth) (a' : Nat) : (s.push v h).byte a' = s.byte a' := rfl

/-! ### popPc -/

@[simp] theorem State.popPc_regs (s : State) (h : 0 < s.sp.val) : (s.popPc h).regs = s.regs := rfl
@[simp] theorem State.popPc_pc (s : State) (h : 0 < s.sp.val) : (s.popPc h).pc = s.stack[s.sp.val - 1]'(by omega) := rfl
@[simp] theorem State.popPc_index (s : State) (h : 0 < s.sp.val) : (s.popPc h).index = s.index := rfl
@[simp] theorem State.popPc_dt (s : State) (h : 0 < s.sp.val) : (s.popPc h).dt = s.dt := rfl
@[simp] theorem State.popPc_st (s : State) (h : 0 < s.sp.val) : (s.popPc h).st = s.st := rfl
@[simp] theorem State.popPc_stack (s : State) (h : 0 < s.sp.val) : (s.popPc h).stack = s.stack := rfl
@[simp] theorem State.popPc_sp (s : State) (h : 0 < s.sp.val) : (s.popPc h).sp = ⟨s.sp.val - 1, by omega⟩ := rfl
@[simp] theorem State.popPc_mem (s : State) (h : 0 < s.sp.val) : (s.popPc h).mem = s.mem := rfl
@[simp] theorem State.popPc_disp (s : State) (h : 0 < s.sp.val) : (s.popPc h).disp = s.disp := rfl
@[simp] theorem State.popPc_cyc (s : State) (h : 0 < s.sp.val) : (s.popPc h).cyc = s.cyc := rfl
@[simp] theorem State.popPc_fault (s : State) (h : 0 < s.sp.val) : (s.popPc h).fault = s.fault := rfl
@[simp] theorem State.popPc_rndDraws (s : State) (h : 0 < s.sp.val) : (s.popPc h).rndDraws = s.rndDraws := rfl
@[simp] theorem State.popPc_keyDraws (s : State) (h : 0 < s.sp.val) : (s.popPc h).keyDraws = s.keyDraws := rfl
@[simp] theorem State.popPc_params (s : State) (h : 0 < s.sp.val) : (s.popPc h).params = s.params := rfl
@[simp] theorem State.popPc_reg (s : State) (h : 0 < s.sp.val) (y : Reg) : (s.popPc h).reg y = s.reg y := rfl
@[simp] theorem State.popPc_byte (s : State) (h : 0 < s.sp.val) (a' : Nat) : (s.popPc h).byte a' = s.byte a' := rfl

/-! ### skip -/

@[simp] theorem State.skip_regs (s : State) : (s.skip).regs = s.regs := rfl
@[simp] theorem State.skip_pc (s : State) : (s.skip).pc = s.pc + 2 := rfl
@[simp] theorem State.skip_index (s : State) : (s.skip).index = s.index := rfl
@[simp] theorem State.skip_dt (s : State) : (s.skip).dt = s.dt := rfl
@[simp] theorem State.skip_st (s : State) : (s.skip).st = s.st := rfl
@[simp] theorem State.skip_stack (s : State) : (s.skip).stack = s.stack := rfl
@[simp] theorem State.skip_sp (s : State) : (s.skip).sp = s.sp := rfl
@[simp] theorem State.skip_mem (s : State) : (s.skip).mem = s.mem := rfl
@[simp] theorem State.skip_disp (s : State) : (s.skip).disp = s.disp := rfl
@[simp] theorem State.skip_cyc (s : State) : (s.skip).cyc = s.cyc := rfl
@[simp] theorem State.skip_fault (s : State) : (s.skip).fault = s.fault := rfl
@[simp] theorem State.skip_rndDraws (s : State) : (s.skip).rndDraws = s.rndDraws := rfl
@[simp] theorem State.skip_keyDraws (s : State) : (s.skip).keyDraws = s.keyDraws := rfl
@[simp] theorem State.skip_params (s : State) : (s.skip).params = s.params := rfl
@[simp] theorem State.skip_reg (s : State) (y : Reg) : (s.skip).reg y = s.reg y := rfl
@[simp] theorem State.skip_byte (s : State) (a' : Nat) : (s.skip).byte a' = s.byte a' := rfl

/-! ### keyDrawn -/

@[simp] theorem State.keyDrawn_regs (s : State) : (s.keyDrawn).regs = s.regs := rfl
@[simp] theorem State.keyDrawn_pc (s : State) : (s.keyDrawn).pc = s.pc := rfl
@[simp] theorem State.keyDrawn_index (s : State) : (s.keyDrawn).index = s.index := rfl
@[simp] theorem State.keyDrawn_dt (s : State) : (s.keyDrawn).dt = s.dt := rfl
@[simp] theorem State.keyDrawn_st (s : State) : (s.keyDrawn).st = s.st := rfl
@[simp] theorem State.keyDrawn_stack (s : State) : (s.keyDrawn).stack = s.stack := rfl
@[simp] theorem State.keyDrawn_sp (s : State) : (s.keyDrawn).sp = s.sp := rfl
@[simp] theorem State.keyDrawn_mem (s : State) : (s.keyDrawn).mem = s.mem := rfl
@[simp] theorem State.keyDrawn_disp (s : State) : (s.keyDrawn).disp = s.disp := rfl
@[simp] theorem State.keyDrawn_cyc (s : State) : (s.keyDrawn).cyc = s.cyc := rfl
@[simp] theorem State.keyDrawn_fault (s : State) : (s.keyDrawn).fault = s.fault := rfl
@[simp] theorem State.keyDrawn_rndDraws (s : State) : (s.keyDrawn).rndDraws = s.rndDraws := rfl
@[simp] theorem State.keyDrawn_keyDraws (s : State) : (s.keyDrawn).keyDraws = s.keyDraws + 1 := rfl
@[simp] theorem State.keyDrawn_params (s : State) : (s.keyDrawn).params = s.params := rfl
@[simp] theorem State.keyDrawn_reg (s : State) (y : Reg) : (s.keyDrawn).reg y = s.reg y := rfl
@[simp] theorem State.keyDrawn_byte (s : State) (a' : Nat) : (s.keyDrawn).byte a' = s.byte a' := rfl

/-! ### rndDrawn -/

@[simp] theorem State.rndDrawn_regs (s : State) : (s.rndDrawn).regs = s.regs := rfl
@[simp] theorem State.rndDrawn_pc (s : State) : (s.rndDrawn).pc = s.pc := rfl
@[simp] theorem State.rndDrawn_index (s : State) : (s.rndDrawn).index = s.index := rfl
@[simp] theorem State.rndDrawn_dt (s : State) : (s.rndDrawn).dt = s.dt := rfl
@[simp] theorem State.rndDrawn_st (s : State) : (s.rndDrawn).st = s.st := rfl
@[simp] theorem State.rndDrawn_stack (s : State) : (s.rndDrawn).stack = s.stack := rfl
@[simp] theorem State.rndDrawn_sp (s : State) : (s.rndDrawn).sp = s.sp := rfl
@[simp] theorem State.rndDrawn_mem (s : State) : (s.rndDrawn).mem = s.mem := rfl
@[simp] theorem State.rndDrawn_disp (s : State) : (s.rndDrawn).disp = s.disp := rfl
@[simp] theorem State.rndDrawn_cyc (s : State) : (s.rndDrawn).cyc = s.cyc := rfl
@[simp] theorem State.rndDrawn_fault (s : State) : (s.rndDrawn).fault = s.fault := rfl
@[simp] theorem State.rndDrawn_rndDraws (s : State) : (s.rndDrawn).rndDraws = s.rndDraws + 1 := rfl
@[simp] theorem State.rndDrawn_keyDraws (s : State) : (s.rndDrawn).keyDraws = s.keyDraws := rfl
@[simp] theorem State.rndDrawn_params (s : State) : (s.rndDrawn).params = s.params := rfl
@[simp] theorem State.rndDrawn_reg (s : State) (y : Reg) : (s.rndDrawn).reg y = s.reg y := rfl
@[simp] theorem State.rndDrawn_byte (s : State) (a' : Nat) : (s.rndDrawn).byte a' = s.byte a' := rfl

/-! ### timerTick -/

@[simp] theorem State.timerTick_regs (s : State) : (s.timerTick).regs = s.regs := rfl
@[simp] theorem State.timerTick_pc (s : State) : (s.timerTick).pc = s.pc := rfl
@[simp] theorem State.timerTick_index (s : State) : (s.timerTick).index = s.index := rfl
@[simp] theorem State.timerTick_dt (s : State) : (s.timerTick).dt = ticked s.dt := rfl
@[simp] theorem State.timerTick_st (s : State) : (s.timerTick).st = ticked s.st := rfl
@[simp] theorem State.timerTick_stack (s : State) : (s.timerTick).stack = s.stack := rfl
@[simp] theorem State.timerTick_sp (s : State) : (s.timerTick).sp = s.sp := rfl
@[simp] theorem State.timerTick_mem (s : State) : (s.timerTick).mem = s.mem := rfl
@[simp] theorem State.timerTick_disp (s : State) : (s.timerTick).disp = s.disp := rfl
@[simp] theorem State.timerTick_cyc (s : State) : (s.timerTick).cyc = s.cyc := rfl
@[simp] theorem State.timerTick_fault (s : State) : (s.timerTick).fault = s.fault := rfl
@[simp] theorem State.timerTick_rndDraws (s : State) : (s.timerTick).rndDraws = s.rndDraws := rfl
@[simp] theorem State.timerTick_keyDraws (s : State) : (s.timerTick).keyDraws = s.keyDraws := rfl
@[simp] theorem State.timerTick_params (s : State) : (s.timerTick).params = s.params := rfl
@[simp] theorem State.timerTick_reg (s : State) (y : Reg) : (s.timerTick).reg y = s.reg y := rfl
@[simp] theorem State.timerTick_byte (s : State) (a' : Nat) : (s.timerTick).byte a' = s.byte a' := rfl

/-! ### raiseData -/

@[simp] theorem State.raiseData_regs (s : State) (i : Instr) : (s.raiseData i).regs = s.regs := rfl
@[simp] theorem State.raiseData_pc (s : State) (i : Instr) : (s.raiseData i).pc = s.pc := rfl
@[simp] theorem State.raiseData_index (s : State) (i : Instr) : (s.raiseData i).index = s.index := rfl
@[simp] theorem State.raiseData_dt (s : State) (i : Instr) : (s.raiseData i).dt = s.dt := rfl
@[simp] theorem State.raiseData_st (s : State) (i : Instr) : (s.raiseData i).st = s.st := rfl
@[simp] theorem State.raiseData_stack (s : State) (i : Instr) : (s.raiseData i).stack = s.stack := rfl
@[simp] theorem State.raiseData_sp (s : State) (i : Instr) : (s.raiseData i).sp = s.sp := rfl
@[simp] theorem State.raiseData_mem (s : State) (i : Instr) : (s.raiseData i).mem = s.mem := rfl
@[simp] theorem State.raiseData_disp (s : State) (i : Instr) : (s.raiseData i).disp = s.disp := rfl
@[simp] theorem State.raiseData_cyc (s : State) (i : Instr) : (s.raiseData i).cyc = s.cyc := rfl
@[simp] theorem State.raiseData_fault (s : State) (i : Instr) : (s.raiseData i).fault = ⟨true, Cause.code .dataOutOfRange, encode i, s.pc - 2, s.badAddr⟩ := rfl
@[simp] theorem State.raiseData_rndDraws (s : State) (i : Instr) : (s.raiseData i).rndDraws = s.rndDraws := rfl
@[simp] theorem State.raiseData_keyDraws (s : State) (i : Instr) : (s.raiseData i).keyDraws = s.keyDraws := rfl
@[simp] theorem State.raiseData_params (s : State) (i : Instr) : (s.raiseData i).params = s.params := rfl
@[simp] theorem State.raiseData_reg (s : State) (i : Instr) (y : Reg) : (s.raiseData i).reg y = s.reg y := rfl
@[simp] theorem State.raiseData_byte (s : State) (i : Instr) (a' : Nat) : (s.raiseData i).byte a' = s.byte a' := rfl

/-! ### storeAtIndex -/

@[simp] theorem State.storeAtIndex_regs (s : State) (vs : List Byte) : (s.storeAtIndex vs).regs = s.regs := rfl
@[simp] theorem State.storeAtIndex_pc (s : State) (vs : List Byte) : (s.storeAtIndex vs).pc = s.pc := rfl
@[simp] theorem State.storeAtIndex_index (s : State) (vs : List Byte) : (s.storeAtIndex vs).index = s.index := rfl
@[simp] theorem State.storeAtIndex_dt (s : State) (vs : List Byte) : (s.storeAtIndex vs).dt = s.dt := rfl
@[simp] theorem State.storeAtIndex_st (s : State) (vs : List Byte) : (s.storeAtIndex vs).st = s.st := rfl
@[simp] theorem State.storeAtIndex_stack (s : State) (vs : List Byte) : (s.storeAtIndex vs).stack = s.stack := rfl
@[simp] theorem State.storeAtIndex_sp (s : State) (vs : List Byte) : (s.storeAtIndex vs).sp = s.sp := rfl
@[simp] theorem State.storeAtIndex_mem (s : State) (vs : List Byte) : (s.storeAtIndex vs).mem = s.mem.writeBytes s.params (s.dataAddr 0) vs := rfl
@[simp] theorem State.storeAtIndex_disp (s : State) (vs : List Byte) : (s.storeAtIndex vs).disp = s.disp := rfl
@[simp] theorem State.storeAtIndex_cyc (s : State) (vs : List Byte) : (s.storeAtIndex vs).cyc = s.cyc := rfl
@[simp] theorem State.storeAtIndex_fault (s : State) (vs : List Byte) : (s.storeAtIndex vs).fault = s.fault := rfl
@[simp] theorem State.storeAtIndex_rndDraws (s : State) (vs : List Byte) : (s.storeAtIndex vs).rndDraws = s.rndDraws := rfl
@[simp] theorem State.storeAtIndex_keyDraws (s : State) (vs : List Byte) : (s.storeAtIndex vs).keyDraws = s.keyDraws := rfl
@[simp] theorem State.storeAtIndex_params (s : State) (vs : List Byte) : (s.storeAtIndex vs).params = s.params := rfl
@[simp] theorem State.storeAtIndex_reg (s : State) (vs : List Byte) (y : Reg) : (s.storeAtIndex vs).reg y = s.reg y := rfl

/-! ### Register reads after a register write -/

/-- A register write is read back from its own register and leaves every other register alone (R13). -/
theorem State.setReg_reg (s : State) (x y : Reg) (v : Byte) : (s.setReg x v).reg y = if y = x then v else s.reg y := by
  simp only [State.reg, State.setReg, Fin.getElem_fin, Vector.getElem_set, Fin.ext_iff, eq_comm]

@[simp] theorem State.setReg_reg_same (s : State) (x : Reg) (v : Byte) : (s.setReg x v).reg x = v := by
  simp [State.setReg_reg]

theorem State.setReg_reg_of_ne (s : State) {x y : Reg} (v : Byte) (h : y ≠ x) : (s.setReg x v).reg y = s.reg y := by
  simp [State.setReg_reg, h]

/-! ### Conditional skips -/

/-- A conditional skip touches the program counter alone (R82). -/
theorem State.skipIf_eq (s : State) (b : Bool) : s.skipIf b = s.setPc (if b then s.pc + 2 else s.pc) := by
  cases b <;> rfl

end Sys2Proof.Machine
end

