-- ==== Sys2Proof/Laws/Ops.lean ====
section
/-! SUPPORT. One lemma for each shared operation that says once all it can do, and the inversion of a step: which cases
there are when it answers a next state. -/

namespace Sys2Proof.Machine

open Sys2Proof.Config

/-! ### Register ranges -/

/-- Registers 0 to X are the registers at most X. -/
@[simp] theorem mem_regsUpTo (x k : Reg) : k ∈ regsUpTo x ↔ k ≤ x := by simp [regsUpTo]

/-- There are X + 1 registers from 0 to X (R129, R130). -/
@[simp] theorem regsUpTo_length (x : Reg) : (regsUpTo x).length = x.val + 1 := by revert x; decide

/-- Register k stands at place k. -/
theorem regsUpTo_getElem? (x k : Reg) (h : k ≤ x) : (regsUpTo x)[k.val]? = some k := by
  revert x k; decide

/-- Loading registers writes the listed registers from memory and nothing else. -/
theorem State.loadRegs_eq (s : State) (ks : List Reg) : ∃ rs, s.loadRegs ks = { s with regs := rs } ∧
    ∀ r, (s.loadRegs ks).reg r = if r ∈ ks then s.byte (s.dataAddr r.val) else s.reg r := by
  induction ks generalizing s with
  | nil => exact ⟨s.regs, rfl, by simp [State.loadRegs]⟩
  | cons k ks ih =>
    obtain ⟨rs, h1, h2⟩ := ih (s.setReg k (s.byte (s.dataAddr k.val)))
    refine ⟨rs, ?_, fun r => ?_⟩
    · simp only [State.loadRegs, h1]; rfl
    · rw [State.loadRegs, h2 r]
      simp only [State.setReg_byte, State.dataAddr, State.setReg_index, State.setReg_reg, List.mem_cons]
      by_cases h : r ∈ ks
      · simp [h]
      · by_cases hk : r = k
        · subst hk; simp
        · simp [h, hk]

/-- What loading registers leaves: every piece of state but the registers. -/
theorem State.loadRegs_same (s : State) (ks : List Reg) (p : Part) : p.same s (s.loadRegs ks) := by
  obtain ⟨rs, h, -⟩ := s.loadRegs_eq ks
  rw [h]
  cases p <;> first | rfl | exact fun _ => rfl

/-! ### Fetch and the end of a cycle -/

/-- A fetch in range gives the word at pc, high byte first, and advances pc (R58). -/
theorem State.fetch_inRange (s : State) (h : s.pc.toNat ≤ 0x0FFE) :
    s.fetch = some (s.fetched, s.setPc (s.pc + 2)) := by
  simp [State.fetch, State.fetched, State.wordAt, Nat.not_lt.2 h]

/-- A fetch above 0x0FFE gives nothing (R158). -/
theorem State.fetch_outOfRange (s : State) (h : s.pc.toNat > 0x0FFE) : s.fetch = none := by
  simp [State.fetch, h]

/-- A tick takes one from a timer that is not zero (R146). -/
theorem ticked_toNat (v : Byte) : (ticked v).toNat = v.toNat - 1 := by
  unfold ticked
  split
  · rename_i h
    have : v.toNat ≠ 0 := fun h' => h (BitVec.eq_of_toNat_eq (by simpa using h'))
    have := v.isLt
    rw [BitVec.toNat_sub]
    simp
    omega
  · rename_i h
    simp only [ne_eq, Decidable.not_not] at h
    simp [h]

/-- The end of a cycle that brings the count to TIMER_DIVIDER (R62). -/
theorem State.endCycle_tick (s : State) (h : s.cyc + 1 = s.params.timerDivider) :
    s.endCycle = (s.timerTick).setCyc 0 := if_pos h

/-- The end of every other cycle (R62). -/
theorem State.endCycle_noTick (s : State) (h : s.cyc + 1 ≠ s.params.timerDivider) :
    s.endCycle = s.setCyc (s.cyc + 1) := if_neg h

/-- The end of a cycle touches the two timers and the divider counter alone (R146). -/
theorem State.endCycle_unchanged (s : State) : UnchangedBut [] [.dt, .st, .cyc] s s.endCycle := by
  unfold State.endCycle
  split <;> refine ⟨fun r _ => rfl, fun p hp => ?_⟩ <;> cases p <;> simp_all [Part.same]

/-- The end of a cycle leaves the fault record. -/
@[simp] theorem State.endCycle_fault (s : State) : s.endCycle.fault = s.fault := s.endCycle_unchanged.2 .fault (by decide)

/-- A cycle whose execute phase did not halt goes on to its end (R62). -/
theorem State.finish_of_running (s : State) (h : s.running) : s.finish = s.endCycle :=
  if_neg (by rw [show s.fault.halted = false from h]; decide)

/-- A cycle whose execute phase halted stops there (R152). -/
theorem State.finish_of_halted (s : State) (h : s.fault.halted = true) : s.finish = s := if_pos h

/-- The rest of a cycle leaves the fault record. -/
@[simp] theorem State.finish_fault (s : State) : s.finish.fault = s.fault := by
  unfold State.finish
  split
  · rfl
  · exact s.endCycle_fault

/-! ### What the execute phase and a step can do -/

/-- Every meaning answers a next state: no instruction suspends (R9), and a fault is a halt (log 1). -/
theorem exec_next (i : Instr) (s : State) : ∃ t, exec i s = .next t := by
  cases i <;> exact ⟨_, rfl⟩

/-- All that a step can do: nothing when halted, a failed fetch, a word without a pattern, or an instruction's meaning on the
state with pc advanced, with the end of the cycle unless it halted. -/
theorem step_cases {s t : State} (h : step s = .next t) :
    (s.fault.halted = true ∧ t = s) ∨
    (s.running ∧ s.pc.toNat > 0x0FFE ∧ t = s.raise .fetchOutOfRange 0 s.pc 0) ∨
    (s.running ∧ s.pc.toNat ≤ 0x0FFE ∧ (∃ r, decodeWord s.fetched = .error r) ∧
      t = (s.setPc (s.pc + 2)).raise .decodeError s.fetched s.pc 0) ∨
    (s.running ∧ s.pc.toNat ≤ 0x0FFE ∧ ∃ i u, decodeWord s.fetched = .ok i ∧
      exec i (s.setPc (s.pc + 2)) = .next u ∧ t = u.finish) := by
  unfold step cycle at h
  by_cases hh : s.fault.halted = true
  · simp only [hh, if_true] at h
    cases h
    exact .inl ⟨hh, rfl⟩
  · have hr : s.running := by simpa [State.running] using hh
    simp only [hh] at h
    by_cases hp : s.pc.toNat > 0x0FFE
    · simp only [s.fetch_outOfRange hp] at h
      cases h
      exact .inr (.inl ⟨hr, hp, rfl⟩)
    · have hp := Nat.not_lt.1 hp
      simp only [s.fetch_inRange hp, runWord] at h
      cases hd : decodeWord s.fetched with
      | error r =>
        simp only [hd] at h
        cases h
        exact .inr (.inr (.inl ⟨hr, hp, ⟨r, rfl⟩, rfl⟩))
      | ok i =>
        obtain ⟨u, hu⟩ := exec_next i (s.setPc (s.pc + 2))
        simp only [hd, hu] at h
        cases h
        exact .inr (.inr (.inr ⟨hr, hp, i, u, rfl, hu, rfl⟩))

/-- Every step answers a next state. -/
theorem step_next (s : State) : ∃ t, step s = .next t := by
  unfold step cycle
  split
  · exact ⟨_, rfl⟩
  · split
    · exact ⟨_, rfl⟩
    · unfold runWord
      split
      · exact ⟨_, rfl⟩
      · rename_i i _
        obtain ⟨u, hu⟩ := exec_next i (by assumption)
        rw [hu]
        exact ⟨_, rfl⟩

/-- A halted core stays as it is. -/
theorem step_of_halted (s : State) (h : s.fault.halted = true) : step s = .next s := if_pos h

end Sys2Proof.Machine
end

