-- ==== Sys2Proof/Laws/Operands.lean ====
section
/-! SUPPORT. What the operand forms, the range check, the stores, the flags and the key lines compute, as numbers. -/

namespace Sys2Proof.Machine

open Sys2Proof.Config

/-! ### Zero extension, the range check and the fault address -/

@[simp] theorem zext12_toNat (nnn : Addr12) : (zext12 nnn).toNat = nnn.toNat := by
  have := nnn.isLt
  simp only [zext12, BitVec.toNat_setWidth]
  omega

@[simp] theorem zext8_toNat (v : Byte) : (zext8 v).toNat = v.toNat := by
  have := v.isLt
  simp only [zext8, BitVec.toNat_setWidth]
  omega

/-- The range check for offsets 0 to m passes exactly when I + m is at most 4095 (R125). -/
theorem State.inRange_iff (s : State) (m : Nat) : s.inRange m = true ↔ s.index.toNat + m ≤ 4095 := decide_eq_true_iff

/-- It fails exactly when I + m is above 4095. -/
theorem State.inRange_eq_false (s : State) (m : Nat) : s.inRange m = false ↔ 4095 < s.index.toNat + m := by
  rw [← Bool.not_eq_true, s.inRange_iff, Nat.not_le]

/-- The fault address is the smallest address above 4095 that an access from I on would touch (R131). -/
theorem State.badAddr_toNat (s : State) : s.badAddr.toNat = max s.index.toNat 4096 := by
  have := s.index.isLt
  simp only [State.badAddr, BitVec.toNat_ofNat]
  omega

/-! ### Stores at I -/

/-- A byte read after a store at I: the stored byte at its offset, else the old byte. -/
theorem State.storeAtIndex_byte (s : State) (vs : List Byte) (hm : s.mem.wf s.params) (a : Nat) :
    (s.storeAtIndex vs).byte a =
      if h : s.index.toNat ≤ a ∧ a - s.index.toNat < vs.length then vs[a - s.index.toNat] else s.byte a :=
  Memory.read_writeBytes s.params vs s.mem (s.dataAddr 0) a hm.1

/-- A store at I leaves every byte outside the stored ones, whatever the memory. -/
theorem State.storeAtIndex_byte_of_outside (s : State) (vs : List Byte) (a : Nat)
    (h : a < s.dataAddr 0 ∨ s.dataAddr 0 + vs.length ≤ a) : (s.storeAtIndex vs).byte a = s.byte a :=
  Memory.read_writeBytes_of_outside s.params vs s.mem (s.dataAddr 0) a h

/-- A store at I changes memory alone. -/
theorem State.storeAtIndex_unchanged (s : State) (vs : List Byte) : UnchangedBut [] [.mem] s (s.storeAtIndex vs) :=
  ⟨fun _ _ => rfl, fun p hp => by cases p <;> first | rfl | exact absurd hp (by decide)⟩

/-- A store that stays in range keeps the canonical form of memory. -/
theorem State.storeAtIndex_wf (s : State) (vs : List Byte) (hm : s.mem.wf s.params)
    (h : s.index.toNat + vs.length ≤ memSize) : (s.storeAtIndex vs).mem.wf s.params :=
  Memory.writeBytes_wf s.params vs s.mem (s.dataAddr 0) hm h

/-! ### The ALU's flags and shifts -/

/-- The raw top bit (R115). -/
theorem highBitFlag_toNat : ∀ a : Byte, (highBitFlag a).toNat = if 128 ≤ a.toNat then 0x80 else 0 := by decide

/-- The low bit (R114). -/
theorem lowBitFlag_toNat : ∀ a : Byte, (lowBitFlag a).toNat = a.toNat % 2 := by decide

/-- The two writes of a shift, for a destination other than the flag register. -/
theorem State.shiftReg_of_ne (s : State) (x : Reg) (flag : Byte) (shift : Byte → Byte) (h : x ≠ flagReg) :
    s.shiftReg x flag shift = (s.setReg flagReg flag).setReg x (shift (s.reg x)) := by
  simp only [State.shiftReg, State.setReg_reg_of_ne s flag h]

/-- The two writes of a shift, for the flag register: the flag itself is shifted (R101). -/
theorem State.shiftReg_flagReg (s : State) (flag : Byte) (shift : Byte → Byte) :
    s.shiftReg flagReg flag shift = (s.setReg flagReg flag).setReg flagReg (shift flag) := by
  simp only [State.shiftReg, State.setReg_reg_same]

/-! ### The key lines -/

/-- Without an input adapter no key is pressed (R95). -/
theorem State.keyPressed_of_noKeypad (s : State) (k : Byte) (h : s.params.keypad = false) : s.keyPressed k = false := by
  simp [State.keyPressed, State.keyLines, h]

/-- A number above 15 names no key (R97). -/
theorem State.keyPressed_of_gt (s : State) (k : Byte) (h : 15 < k.toNat) : s.keyPressed k = false := by
  rw [State.keyPressed, if_neg (Nat.not_le.2 h)]

/-- With an input adapter, a key is pressed when its line is 1 in the sample (R94, R97). -/
theorem State.keyPressed_of_keypad (s : State) (k : Byte) (h : s.params.keypad = true) (hk : k.toNat ≤ 15) :
    s.keyPressed k = (keyIn s.keyDraws).getLsbD k.toNat := by
  simp [State.keyPressed, State.keyLines, h, hk]

/-! ### The fault mechanism -/

/-- Raising a fault changes the fault record alone (R152, R163). -/
theorem State.raise_unchanged (s : State) (c : Cause) (w a : Word) (b : BitVec 17) :
    UnchangedBut [] [.fault] s (s.raise c w a b) :=
  ⟨fun _ _ => rfl, fun p hp => by cases p <;> first | rfl | exact fun _ => rfl | exact absurd hp (by decide)⟩

/-! ### Program load -/

/-- An image that fits is loaded by one write of its bytes at the base offset (R49). -/
theorem State.loadImage_of_fits (s : State) (image : List Byte) (h : image.length ≤ 3584) :
    s.loadImage image = some (s.setMem (s.mem.writeBytes s.params programBase image)) := if_pos h

end Sys2Proof.Machine
end

