-- ==== Sys2Proof/Laws/PerInstr.lean ====
section
/-! SUPPORT. Statements made of every instruction, one lemma per constructor: the word of a well-formed instruction selects
that instruction's own row of opcode_table.json (30_encoding.md R59, R69). -/

namespace Sys2Proof.Laws.EncodesInRow

/-- The encoder stays inside the row of the opcode table that the instruction belongs to. -/
def Statement (i : Instr) : Prop := i.wf = true → i.row.selects (encode i)

theorem cls : Statement .cls := fun _ => by decide

theorem ret : Statement .ret := fun _ => by decide

theorem sys (nnn : Addr12) : Statement (.sys nnn) := by
  intro h
  refine ⟨by simp only [Instr.row, and_F000, encode, fieldOp_packNNN]; decide, fun _ => ?_⟩
  simp only [Instr.wf, Bool.and_eq_true, bne_iff_ne, ne_eq] at h
  refine ⟨fun e => h.1 ?_, fun e => h.2 ?_⟩ <;>
    (have := congrArg fieldNNN e; rw [encode, fieldNNN_packNNN] at this; rw [this]; rfl)

theorem jp (nnn : Addr12) : Statement (.jp nnn) := fun _ =>
  ⟨by simp only [Instr.row, and_F000, encode, fieldOp_packNNN]; rfl, by simp [Instr.row]⟩

theorem call (nnn : Addr12) : Statement (.call nnn) := fun _ =>
  ⟨by simp only [Instr.row, and_F000, encode, fieldOp_packNNN]; rfl, by simp [Instr.row]⟩

theorem seImm (x : Reg) (nn : Byte) : Statement (.seImm x nn) := fun _ =>
  ⟨by simp only [Instr.row, and_F000, encode, fieldOp_packXNN]; rfl, by simp [Instr.row]⟩

theorem sneImm (x : Reg) (nn : Byte) : Statement (.sneImm x nn) := fun _ =>
  ⟨by simp only [Instr.row, and_F000, encode, fieldOp_packXNN]; rfl, by simp [Instr.row]⟩

theorem seReg (x y : Reg) : Statement (.seReg x y) := fun _ =>
  ⟨by simp only [Instr.row, and_F00F, encode, fieldOp_packXYN, fieldN_packXYN]; rfl, by simp [Instr.row]⟩

theorem ldImm (x : Reg) (nn : Byte) : Statement (.ldImm x nn) := fun _ =>
  ⟨by simp only [Instr.row, and_F000, encode, fieldOp_packXNN]; rfl, by simp [Instr.row]⟩

theorem addImm (x : Reg) (nn : Byte) : Statement (.addImm x nn) := fun _ =>
  ⟨by simp only [Instr.row, and_F000, encode, fieldOp_packXNN]; rfl, by simp [Instr.row]⟩

theorem ldReg (x y : Reg) : Statement (.ldReg x y) := fun _ =>
  ⟨by simp only [Instr.row, and_F00F, encode, fieldOp_packXYN, fieldN_packXYN]; rfl, by simp [Instr.row]⟩

theorem orReg (x y : Reg) : Statement (.orReg x y) := fun _ =>
  ⟨by simp only [Instr.row, and_F00F, encode, fieldOp_packXYN, fieldN_packXYN]; rfl, by simp [Instr.row]⟩

theorem andReg (x y : Reg) : Statement (.andReg x y) := fun _ =>
  ⟨by simp only [Instr.row, and_F00F, encode, fieldOp_packXYN, fieldN_packXYN]; rfl, by simp [Instr.row]⟩

theorem xorReg (x y : Reg) : Statement (.xorReg x y) := fun _ =>
  ⟨by simp only [Instr.row, and_F00F, encode, fieldOp_packXYN, fieldN_packXYN]; rfl, by simp [Instr.row]⟩

theorem addReg (x y : Reg) : Statement (.addReg x y) := fun _ =>
  ⟨by simp only [Instr.row, and_F00F, encode, fieldOp_packXYN, fieldN_packXYN]; rfl, by simp [Instr.row]⟩

theorem subReg (x y : Reg) : Statement (.subReg x y) := fun _ =>
  ⟨by simp only [Instr.row, and_F00F, encode, fieldOp_packXYN, fieldN_packXYN]; rfl, by simp [Instr.row]⟩

theorem shr (x : Reg) (ignored : Nibble) : Statement (.shr x ignored) := fun _ =>
  ⟨by simp only [Instr.row, and_F00F, encode, fieldOp_packXYN, fieldN_packXYN]; rfl, by simp [Instr.row]⟩

theorem shl (x : Reg) (ignored : Nibble) : Statement (.shl x ignored) := fun _ =>
  ⟨by simp only [Instr.row, and_F00F, encode, fieldOp_packXYN, fieldN_packXYN]; rfl, by simp [Instr.row]⟩

theorem sneReg (x y : Reg) : Statement (.sneReg x y) := fun _ =>
  ⟨by simp only [Instr.row, and_F00F, encode, fieldOp_packXYN, fieldN_packXYN]; rfl, by simp [Instr.row]⟩

theorem ldI (nnn : Addr12) : Statement (.ldI nnn) := fun _ =>
  ⟨by simp only [Instr.row, and_F000, encode, fieldOp_packNNN]; rfl, by simp [Instr.row]⟩

theorem jpV0 (nnn : Addr12) : Statement (.jpV0 nnn) := fun _ =>
  ⟨by simp only [Instr.row, and_F000, encode, fieldOp_packNNN]; rfl, by simp [Instr.row]⟩

theorem rnd (x : Reg) (nn : Byte) : Statement (.rnd x nn) := fun _ =>
  ⟨by simp only [Instr.row, and_F000, encode, fieldOp_packXNN]; rfl, by simp [Instr.row]⟩

theorem drw (x y : Reg) (n : Nibble) : Statement (.drw x y n) := fun _ =>
  ⟨by simp only [Instr.row, and_F000, encode, fieldOp_packXYN]; rfl, by simp [Instr.row]⟩

theorem skp (x : Reg) : Statement (.skp x) := fun _ =>
  ⟨by simp only [Instr.row, and_F0FF, encode, fieldOp_packXNN, fieldNN_packXNN]; rfl, by simp [Instr.row]⟩

theorem sknp (x : Reg) : Statement (.sknp x) := fun _ =>
  ⟨by simp only [Instr.row, and_F0FF, encode, fieldOp_packXNN, fieldNN_packXNN]; rfl, by simp [Instr.row]⟩

theorem ldVxDt (x : Reg) : Statement (.ldVxDt x) := fun _ =>
  ⟨by simp only [Instr.row, and_F0FF, encode, fieldOp_packXNN, fieldNN_packXNN]; rfl, by simp [Instr.row]⟩

theorem ldDtVx (x : Reg) : Statement (.ldDtVx x) := fun _ =>
  ⟨by simp only [Instr.row, and_F0FF, encode, fieldOp_packXNN, fieldNN_packXNN]; rfl, by simp [Instr.row]⟩

theorem ldStVx (x : Reg) : Statement (.ldStVx x) := fun _ =>
  ⟨by simp only [Instr.row, and_F0FF, encode, fieldOp_packXNN, fieldNN_packXNN]; rfl, by simp [Instr.row]⟩

theorem addI (x : Reg) : Statement (.addI x) := fun _ =>
  ⟨by simp only [Instr.row, and_F0FF, encode, fieldOp_packXNN, fieldNN_packXNN]; rfl, by simp [Instr.row]⟩

theorem ldF (digit : Nibble) : Statement (.ldF digit) := fun _ =>
  ⟨by simp only [Instr.row, and_F0FF, encode, fieldOp_packXYN, fieldNN_packXYN]; rfl, by simp [Instr.row]⟩

theorem ldB (x : Reg) : Statement (.ldB x) := fun _ =>
  ⟨by simp only [Instr.row, and_F0FF, encode, fieldOp_packXNN, fieldNN_packXNN]; rfl, by simp [Instr.row]⟩

theorem stRegs (x : Reg) : Statement (.stRegs x) := fun _ =>
  ⟨by simp only [Instr.row, and_F0FF, encode, fieldOp_packXNN, fieldNN_packXNN]; rfl, by simp [Instr.row]⟩

theorem ldRegs (x : Reg) : Statement (.ldRegs x) := fun _ =>
  ⟨by simp only [Instr.row, and_F0FF, encode, fieldOp_packXNN, fieldNN_packXNN]; rfl, by simp [Instr.row]⟩

end Sys2Proof.Laws.EncodesInRow
end

