-- ==== Sys2Proof/Tests/Slice0.lean ====
section
/-! SUPPORT. Tests on small states, with expected results from 95_test_vectors.md, and for every statement with hypotheses a
witness that meets them. -/

namespace Sys2Proof.Tests

open Sys2Proof Sys2Proof.Machine Sys2Proof.Config

/-! ### Well-formedness -/

theorem test_wf_refuses_sys_with_the_word_of_cls : (Instr.sys 0x0E0).wf = false := by decide

theorem test_wf_refuses_sys_with_the_word_of_ret : (Instr.sys 0x0EE).wf = false := by decide

theorem test_wf_accepts_the_neighbour_of_cls : (Instr.sys 0x0E1).wf = true := by decide

/-! ### Decoding: words written out nibble by nibble from R55 and R60 -/

theorem test_decode_control :
    decodeTableWord 16 0b0000000011100000 = some .cls ∧ decodeTableWord 16 0b0000000011101110 = some .ret ∧
    decodeTableWord 16 0b0000000011100001 = some (.sys 0x0E1) ∧ decodeTableWord 16 0b0001001000000100 = some (.jp 0x204) ∧
    decodeTableWord 16 0b0010001000010000 = some (.call 0x210) ∧
    decodeTableWord 16 0b1011001100000000 = some (.jpV0 0x300) := by decide

theorem test_decode_skips :
    decodeTableWord 16 0b0011000100000000 = some (.seImm 1 0x00) ∧
    decodeTableWord 16 0b0100001000000110 = some (.sneImm 2 0x06) ∧
    decodeTableWord 16 0b0101001101000000 = some (.seReg 3 4) ∧
    decodeTableWord 16 0b1001001101000000 = some (.sneReg 3 4) ∧
    decodeTableWord 16 0b1110010110011110 = some (.skp 5) ∧
    decodeTableWord 16 0b1110010110100001 = some (.sknp 5) := by decide

theorem test_decode_loads_and_logic :
    decodeTableWord 16 0b0110000000000101 = some (.ldImm 0 0x05) ∧
    decodeTableWord 16 0b0111000111111111 = some (.addImm 1 0xFF) ∧
    decodeTableWord 16 0b1000000100100000 = some (.ldReg 1 2) ∧
    decodeTableWord 16 0b1000000000010001 = some (.orReg 0 1) ∧
    decodeTableWord 16 0b1000000000010010 = some (.andReg 0 1) ∧
    decodeTableWord 16 0b1000000000010011 = some (.xorReg 0 1) := by decide

theorem test_decode_arithmetic :
    decodeTableWord 16 0b1000111100010100 = some (.addReg 15 1) ∧
    decodeTableWord 16 0b1000111100010101 = some (.subReg 15 1) ∧
    decodeTableWord 16 0b1000001101110110 = some (.shr 3 7) ∧
    decodeTableWord 16 0b1000001100001110 = some (.shl 3 0) ∧
    decodeTableWord 16 0b1100000000001111 = some (.rnd 0 0x0F) := by decide

theorem test_decode_index_and_memory :
    decodeTableWord 16 0b1010001000000000 = some (.ldI 0x200) ∧
    decodeTableWord 16 0b1111001000011110 = some (.addI 2) ∧
    decodeTableWord 16 0b1111001100101001 = some (.ldF 3) ∧
    decodeTableWord 16 0b1111001000110011 = some (.ldB 2) ∧
    decodeTableWord 16 0b1111001001010101 = some (.stRegs 2) ∧
    decodeTableWord 16 0b1111001001100101 = some (.ldRegs 2) := by decide

theorem test_decode_display_and_timers :
    decodeTableWord 16 0b1101000000010010 = some (.drw 0 1 2) ∧
    decodeTableWord 16 0b1111001100000111 = some (.ldVxDt 3) ∧
    decodeTableWord 16 0b1111000000010101 = some (.ldDtVx 0) ∧
    decodeTableWord 16 0b1111010000011000 = some (.ldStVx 4) := by decide

theorem test_decode_rejects_words_without_a_pattern :
    decodeTableWord 16 0x5341 = none ∧ decodeTableWord 16 0x8018 = none ∧ decodeTableWord 16 0x9341 = none ∧
    decodeTableWord 16 0xE59F = none ∧ decodeTableWord 16 0xF066 = none ∧ decodeTableWord 16 0xFFFF = none := by decide

/-! ### One step on a small state -/

/-- The state after one cycle that fetches the word `w`. -/
def after (s : State) (w : Nat) : State :=
  match step (s.withFetchWord 16 w) with
  | .next t => t
  | .fault _ => s
  | .refused _ => s

/-- Reset with two registers set. -/
def twoRegs (x : Reg) (v : Byte) (y : Reg) (w : Byte) : State := (State.reset.setReg x v).setReg y w

/-- Reset with I and a few bytes from I on. -/
def withBytes (i : Word) (vs : List Byte) : State := (State.reset.setIndex i).storeAtIndex vs

/-- A pixel set in the display of reset. -/
def withPixel (s : State) (row col : Nat) : State := s.setDisp (flipPixel s.disp row col)

/-- A stack of a given depth with the newest entry given. -/
def withStack (d : Fin 25) (v : Word) : State :=
  { State.reset with sp := d, stack := Vector.replicate 24 v }

theorem test_cls : let t := after (withPixel (State.reset.setReg 15 0x55) 3 4) 0x00E0
    t.pixel 3 4 = false ∧ t.reg 15 = 0x55 := by decide

theorem test_ret_pops : let t := after (withStack 1 0x0206) 0x00EE
    t.pc = 0x0206 ∧ t.sp = 0 := by decide

theorem test_ret_underflow : (after State.reset 0x00EE).fault = ⟨true, 4, 0x00EE, 0x0200, 0⟩ := by decide

theorem test_sys_halts : (after State.reset 0x0FFF).fault = ⟨true, 2, 0x0FFF, 0x0200, 0⟩ := by decide

theorem test_jp : (after State.reset 0x1FFF).pc = 0x0FFF := by decide

theorem test_call_pushes_the_next_address : let t := after (withStack 23 0) 0x2300
    t.stack[23] = 0x0202 ∧ t.sp = 24 ∧ t.pc = 0x0300 := by decide

theorem test_call_overflow : let t := after (withStack 24 0) 0x2300
    t.fault.cause = 3 ∧ t.sp = 24 ∧ t.pc = 0x0202 := by decide

theorem test_seImm_equal : (after State.reset 0x3100).pc = 0x0204 := by decide

theorem test_seImm_raw_flag : (after (State.reset.setReg 15 0x80) 0x3F01).pc = 0x0202 := by decide

theorem test_sneImm_different : (after (State.reset.setReg 2 5) 0x4206).pc = 0x0204 := by decide

theorem test_sneImm_equal : (after (State.reset.setReg 2 5) 0x4205).pc = 0x0202 := by decide

theorem test_seReg_equal : (after (twoRegs 3 0x7F 4 0x7F) 0x5340).pc = 0x0204 := by decide

theorem test_seReg_different : (after (twoRegs 3 0x7F 4 0x80) 0x5340).pc = 0x0202 := by decide

theorem test_sneReg_different : (after (twoRegs 3 1 4 2) 0x9340).pc = 0x0204 := by decide

theorem test_sneReg_same_register : (after (State.reset.setReg 3 9) 0x9330).pc = 0x0202 := by decide

theorem test_ldImm : let t := after State.reset 0x6005
    t.reg 0 = 0x05 ∧ t.pc = 0x0202 ∧ t.cyc = 1 := by decide

theorem test_addImm_wraps_without_flag : let t := after (twoRegs 1 0x05 15 0x55) 0x71FF
    t.reg 1 = 0x04 ∧ t.reg 15 = 0x55 := by decide

theorem test_ldReg : (after (State.reset.setReg 2 0xAB) 0x8120).reg 1 = 0xAB := by decide

theorem test_orReg : let t := after ((twoRegs 0 0xF0 1 0x0F).setReg 15 0x55) 0x8011
    t.reg 0 = 0xFF ∧ t.reg 15 = 0x55 := by decide

theorem test_andReg : let t := after ((twoRegs 0 0xF0 1 0x3C).setReg 15 0x55) 0x8012
    t.reg 0 = 0x30 ∧ t.reg 15 = 0x55 := by decide

theorem test_xorReg : let t := after ((twoRegs 0 0xF0 1 0x3C).setReg 15 0x55) 0x8013
    t.reg 0 = 0xCC ∧ t.reg 15 = 0x55 := by decide

theorem test_addReg_carry : let t := after (twoRegs 0 0xC8 1 0x64) 0x8014
    t.reg 0 = 0x2C ∧ t.reg 15 = 1 := by decide

theorem test_addReg_into_flag : (after (twoRegs 15 0x03 1 0x04) 0x8F14).reg 15 = 0 := by decide

theorem test_subReg_borrow_is_unsigned : let t := after (twoRegs 0 0x80 1 0x01) 0x8015
    t.reg 0 = 0x7F ∧ t.reg 15 = 0 := by decide

theorem test_subReg_into_flag : (after (twoRegs 15 0x03 1 0x04) 0x8F15).reg 15 = 1 := by decide

theorem test_shr_ignores_Y : let t := after (twoRegs 3 0x05 7 0xEE) 0x8376
    t.reg 3 = 0x02 ∧ t.reg 15 = 1 ∧ t.reg 7 = 0xEE := by decide

theorem test_shr_of_flag : (after (State.reset.setReg 15 0x03) 0x8F06).reg 15 = 0 := by decide

theorem test_shl_flag_is_raw : let t := after (State.reset.setReg 3 0x81) 0x830E
    t.reg 3 = 0x02 ∧ t.reg 15 = 0x80 := by decide

theorem test_shl_of_flag : (after (State.reset.setReg 15 0xC1) 0x8F0E).reg 15 = 0 := by decide

theorem test_ldI : (after State.reset 0xAFFF).index = 0x0FFF := by decide

theorem test_jpV0_is_not_reduced : (after (State.reset.setReg 0 0xFF) 0xBFFF).pc = 0x10FE := by decide

theorem test_rnd_masks_everything : (after State.reset 0xC000).reg 0 = 0 := by
  show Config.rndIn 0 &&& 0x00#8 = 0#8
  exact BitVec.and_zero

theorem test_rnd_moves_to_the_next_byte : (after State.reset 0xC0FF).rndDraws = 1 := by decide

theorem test_drw_wraps_both_edges :
    let t := after ((withBytes 0x300 [0xC0, 0x81]).setReg 0 62 |>.setReg 1 31) 0xD012
    t.pixel 31 62 = true ∧ t.pixel 31 63 = true ∧ t.pixel 0 62 = true ∧ t.pixel 0 5 = true ∧ t.pixel 0 63 = false ∧
      t.reg 15 = 0 := by decide

theorem test_drw_collides_only_under_a_one :
    (after (withPixel (withBytes 0x300 [0x40]) 0 0) 0xD011).reg 15 = 0 ∧
    (after (withPixel (withBytes 0x300 [0xC0]) 0 0) 0xD011).reg 15 = 1 := by decide

theorem test_skp_without_adapter : let t := after (State.reset.setReg 5 0x0A) 0xE59E
    t.pc = 0x0202 ∧ t.keyDraws = 1 := by decide

theorem test_skp_number_without_key :
    (after { State.reset.setReg 5 0x1A with params := ⟨10, 0, customaryFont, true⟩ } 0xE59E).pc = 0x0202 := by decide

theorem test_sknp_without_adapter : let t := after (State.reset.setReg 5 0x0A) 0xE5A1
    t.pc = 0x0204 ∧ t.keyDraws = 1 := by decide

theorem test_sknp_number_without_key :
    (after { State.reset.setReg 5 0x1A with params := ⟨10, 0, customaryFont, true⟩ } 0xE5A1).pc = 0x0204 := by decide

theorem test_ldVxDt_reads_before_the_tick : let t := after ((State.reset.setDt 0x05).setCyc 9) 0xF307
    t.reg 3 = 0x05 ∧ t.dt = 0x04 ∧ t.cyc = 0 := by decide

theorem test_ldDtVx_ticks_in_the_same_cycle : let t := after ((State.reset.setReg 0 3).setCyc 9) 0xF015
    t.dt = 0x02 ∧ t.cyc = 0 := by decide

theorem test_ldStVx : (after (State.reset.setReg 4 0x10) 0xF418).st = 0x10 := by decide

theorem test_addI_wraps_without_flag : let t := after ((twoRegs 2 0x02 15 0x55).setIndex 0xFFFF) 0xF21E
    t.index = 0x0001 ∧ t.reg 15 = 0x55 := by decide

theorem test_ldF_uses_the_nibble : (after (State.reset.setReg 15 0x09) 0xFF29).index = 0x004B := by decide

theorem test_ldB : let t := after ((withBytes 0x300 []).setReg 2 0xEA) 0xF233
    t.byte 0x300 = 2 ∧ t.byte 0x301 = 3 ∧ t.byte 0x302 = 4 ∧ t.index = 0x0300 := by decide

theorem test_ldB_out_of_range : let t := after ((withBytes 0xFFE []).setReg 2 9) 0xF233
    t.fault = ⟨true, 6, 0xF233, 0x0200, 0x1000⟩ ∧ t.byte 0xFFE = 0 := by decide

theorem test_stRegs_includes_X : let t := after ((twoRegs 1 0x22 2 0x33).setIndex 0x400) 0xF255
    t.byte 0x401 = 0x22 ∧ t.byte 0x402 = 0x33 ∧ t.byte 0x403 = 0 ∧ t.index = 0x0400 := by decide

theorem test_stRegs_stores_nothing_on_a_fault : let t := after ((twoRegs 0 1 1 2).setIndex 0xFF1) 0xFF55
    t.fault.addr = 0x1000 ∧ t.byte 0xFF1 = 0 := by decide

theorem test_ldRegs_includes_X : let t := after ((withBytes 0x300 [2, 3, 4, 5]).setReg 3 0x77) 0xF265
    t.reg 0 = 2 ∧ t.reg 2 = 4 ∧ t.reg 3 = 0x77 ∧ t.index = 0x0300 := by decide

theorem test_ldRegs_out_of_range : let t := after ((State.reset.setIndex 0x1000).setReg 0 7) 0xF065
    t.fault.addr = 0x1000 ∧ t.reg 0 = 7 := by decide

theorem test_no_tick_in_a_faulting_cycle : let t := after ((State.reset.setDt 5).setCyc 9) 0xFFFF
    t.fault = ⟨true, 1, 0xFFFF, 0x0200, 0⟩ ∧ t.dt = 5 ∧ t.cyc = 9 ∧ t.pc = 0x0202 := by decide

theorem test_timers_stop_at_zero : let t := after ((State.reset.setSt 1).setCyc 9) 0x6000
    t.dt = 0 ∧ t.st = 0 ∧ t.cyc = 0 := by decide

/-! ### Load and run -/

/-- Reset with an image loaded. -/
def booted (image : List Byte) : State := (State.reset.loadImage image).getD State.reset

theorem test_first_byte_of_a_word_is_the_high_byte : ∃ t, step (booted [0x60, 0x05, 0x00, 0xEE]) = .next t ∧
    t.reg 0 = 5 ∧ t.pc = 0x0202 := ⟨_, rfl, by decide⟩

theorem test_fetch_out_of_range : ∃ t, step (State.reset.setPc 0x10FE) = .next t ∧
    t.fault = ⟨true, 5, 0x0000, 0x10FE, 0⟩ ∧ t.pc = 0x10FE := ⟨_, rfl, by decide⟩

theorem test_font_is_at_the_bottom_of_memory : State.reset.byte 0 = 0xF0 ∧ State.reset.byte 79 = 0x80 ∧
    State.reset.byte 80 = 0 := by decide

theorem test_read_out : (withPixel State.reset 1 2).dispOut[66]? = some 1 := by
  rw [State.dispOut, List.getElem?_map, List.getElem?_range (by decide)]
  rfl

/-! ### Witnesses: each hypothesis of a statement is met, at a boundary where its range has one -/

/-- Reset about to execute a word. -/
def ready (w : Nat) : State := State.reset.withFetchWord 16 w

theorem witness_DecodeOfEncodeIsIdentity : (Instr.drw 15 0 15).wf = true ∧ (Instr.sys 0x0E1).wf = true := by decide

theorem witness_EncodeOfDecodeIsIdentity : decodeWord 0x00EF = .ok (.sys 0x0EF) ∧ decodeWord 0xFF29 = .ok (.ldF 15) :=
  ⟨rfl, rfl⟩

theorem witness_StepRunsTheDecodedInstruction :
    let s := (State.reset.setPc 0x0FFE).withFetchWord 16 0x6005
    s.running ∧ s.pc.toNat ≤ 0x0FFE ∧ decodeWord s.fetched = .ok (.ldImm 0 5) := ⟨rfl, by decide, rfl⟩

theorem witness_PlacedWordIsFetchedNext : State.reset.mem.wf State.reset.params ∧ State.reset.running ∧
    (State.reset.setPc 0x0FFE).pc.toNat ≤ 0x0FFE := ⟨by decide, rfl, by decide⟩

theorem witness_TimersTickEveryDividerthCycle :
    let s := ready 0x6000
    s.running ∧ s.pc.toNat ≤ 0x0FFE ∧ decodeWord s.fetched = .ok (.ldImm 0 0) ∧
    (∃ t, exec (.ldImm 0 0) (s.setPc (s.pc + 2)) = .next t ∧ t.running) ∧
    (s.setCyc 9).cyc + 1 = s.params.timerDivider ∧ (s.setCyc 8).cyc + 1 ≠ s.params.timerDivider :=
  ⟨rfl, by decide, rfl, ⟨_, rfl, rfl⟩, by decide, by decide⟩

theorem witness_TimersOnlyFallBetweenSets : (ready 0xF015).running ∧ ∃ t, step (ready 0xF015) = .next t := ⟨rfl, _, rfl⟩

theorem witness_HaltedCoreStaysFrozen : (after State.reset 0xFFFF).fault.halted = true := by decide

theorem witness_StepHaltsExactlyForTheListedCauses :
    (State.reset.setPc 0x0FFF).causeOf = some .fetchOutOfRange ∧ (ready 0x5341).causeOf = some .decodeError ∧
    (ready 0x0000).causeOf = some .unsupportedNativeCall ∧
    ((withStack 24 0).withFetchWord 16 0x2300).causeOf = some .stackOverflow ∧
    (ready 0x00EE).causeOf = some .stackUnderflow ∧
    ((State.reset.setIndex 0x0FFE).withFetchWord 16 0xD013).causeOf = some .dataOutOfRange ∧
    ((State.reset.setIndex 0x0FFE).withFetchWord 16 0xD012).causeOf = none ∧ State.reset.running :=
  ⟨by decide, by decide, by decide, by decide, by decide, by decide, by decide, rfl⟩

theorem witness_HaltingCycleChangesOnlyPcAndRecord :
    ((ready 0xFFFF).running ∧ (ready 0xFFFF).pc.toNat ≤ 0x0FFE ∧
      ∃ t, step (ready 0xFFFF) = .next t ∧ t.fault.halted = true) ∧
    ((State.reset.setPc 0x0FFF).running ∧ (State.reset.setPc 0x0FFF).pc.toNat > 0x0FFE ∧
      ∃ t, step (State.reset.setPc 0x0FFF) = .next t ∧ t.fault.halted = true) :=
  ⟨⟨rfl, by decide, _, rfl, rfl⟩, rfl, by decide, _, rfl, rfl⟩

theorem witness_CallPushesNextAddressAndJumps : (withStack 23 0).sp.val < 24 ∧ (withStack 24 0).sp.val = 24 := by decide

theorem witness_ReturnPopsIntoPc : 0 < (withStack 1 0).sp.val ∧ State.reset.sp.val = 0 := by decide

theorem witness_CallThenReturnRestoresPcAndDepth :
    let s := ((withStack 23 0).setByte 0x301 0xEE).withFetchWord 16 0x2300
    s.running ∧ s.pc.toNat ≤ 0x0FFE ∧ s.sp.val < 24 ∧ decodeWord s.fetched = .ok (.call 0x300) ∧
    (0x300#12).toNat ≤ 0x0FFE ∧ wordOf (s.byte 0x300) (s.byte 0x301) = 0x00EE :=
  ⟨rfl, by decide, by decide, rfl, by decide, by decide⟩

theorem witness_KeySkipsFollowTheSampledLine :
    ({ State.reset with params := ⟨10, 0, customaryFont, true⟩ } : State).params.keypad = true ∧
    ((State.reset.setReg 5 15).reg 5).toNat ≤ 15 ∧ ((State.reset.setReg 5 16).reg 5).toNat > 15 ∧
    State.reset.params.keypad = false := by decide

theorem witness_of_a_destination_other_than_the_flag : (0 : Reg) ≠ 15 ∧ (14 : Reg) ≠ 15 := by decide

theorem witness_RandomByteIsMasked : (0x0F#8).getLsbD 4 = false := by decide

theorem witness_DecimalDigitsAreStored : let s := State.reset.setIndex 0x0FFD
    s.mem.wf s.params ∧ s.index.toNat + 2 ≤ 4095 := by decide

theorem witness_RegistersAreStored : let s := State.reset.setIndex 0x0FF0
    s.mem.wf s.params ∧ s.index.toNat + (15 : Reg).val ≤ 4095 := by decide

theorem witness_RegistersAreLoaded : (State.reset.setIndex 0x0FF0).index.toNat + (15 : Reg).val ≤ 4095 := by decide

theorem witness_AccessAbove4095HaltsWithoutEffect :
    (State.reset.setIndex 0x0FFE).index.toNat + 2 > 4095 ∧ (State.reset.setIndex 0x0FF1).index.toNat + (15 : Reg).val > 4095 ∧
    (State.reset.setIndex 0x1000).index.toNat + (0 : Reg).val > 4095 ∧
    (3#4).toNat = 2 + 1 := by decide

theorem witness_StoreThenLoadRestoresRegisters : let s := State.reset.setIndex 0x0FF0
    s.mem.wf s.params ∧ s.index.toNat + (15 : Reg).val ≤ 4095 ∧
    ∃ t, exec (.stRegs 15) s = .next t ∧ ((t.setReg 3 9).mem = t.mem ∧ (t.setReg 3 9).params = t.params ∧
      (t.setReg 3 9).index = t.index) := ⟨by decide, by decide, _, rfl, rfl, rfl, rfl⟩

theorem witness_CanonicalMemoryIsDeterminedByReads :
    Memory.wf Params.default [(0x000, 0x01), (0x300, 0x02)] ∧ ¬ Memory.wf Params.default [(0x300, 0x00)] := by decide

theorem witness_DrawInvertsCoveredPixelsAndReportsCollision :
    let s := withBytes 0x0FFE [0x80, 0x80]
    (0 < (2#4).toNat → s.index.toNat + (2#4).toNat - 1 ≤ 4095) ∧ s.spriteSets 0 1 2 1 0 ∧ ¬ s.spriteSets 0 1 2 2 0 ∧
    (withPixel s 1 0).pixel 1 0 = true ∧ s.pixel 1 0 = false := by
  refine ⟨by decide, ⟨1, by decide, 0, by decide, by decide, by decide, by decide⟩, ?_, by decide, by decide⟩
  rintro ⟨r, hr, c, hc, h1, h2, h3⟩
  have : r < 2 := hr
  have e : ((withBytes 0x0FFE [0x80, 0x80]).reg 1).toNat = 0 := by decide
  rw [e] at h1
  omega

theorem witness_DrawingTwiceRestoresTheDisplay :
    let s := withBytes 0x0FFE [0x80, 0x80]
    (0 : Reg) ≠ 15 ∧ (1 : Reg) ≠ 15 ∧ s.index.toNat + (2#4).toNat ≤ 4096 ∧
    (∃ t u, exec (.drw 0 1 2) s = .next t ∧ exec (.drw 0 1 2) t = .next u) ∧
    (∀ row < 32, ∀ col < 64, s.pixel row col = false) :=
  ⟨by decide, by decide, by decide, ⟨_, _, rfl, rfl⟩, by
    intro row hr col _
    simp only [State.pixel, pixelOf, dif_pos (show row < dispH from hr)]
    show (Vector.replicate dispH (0 : BitVec dispW))[row].getLsbD col = false
    simp⟩

theorem witness_LoadedImageStandsAtTheBaseOffset : State.reset.mem.wf State.reset.params ∧
    (List.replicate 3584 (0 : Byte)).length ≤ 3584 := by
  rw [List.length_replicate]
  decide

theorem witness_OverlongImageIsRefused : 3584 < (List.replicate 3585 (0 : Byte)).length := by
  rw [List.length_replicate]
  decide

/-- For `Fx33` and `Fx55`, an address just below and one just above the stored bytes. -/
theorem witness_InstructionsWriteOnlyWhatTheTablesList : let s := State.reset.setIndex 0x300
    (∃ t, exec (.ldRegs 15) s = .next t) ∧ (∃ t, exec (.ldB 0) s = .next t) ∧ (∃ t, exec (.stRegs 15) s = .next t) ∧
    0x2FF < s.dataAddr 0 ∧ s.dataAddr 2 < 0x303 ∧ s.dataAddr (15 : Reg).val < 0x310 :=
  ⟨⟨_, rfl⟩, ⟨_, rfl⟩, ⟨_, rfl⟩, by decide, by decide, by decide⟩

theorem witness_OtherInstructionsDependOnNoInput : (∀ x, Instr.cls ≠ .skp x) ∧ (∀ x, Instr.cls ≠ .sknp x) ∧
    (∀ x nn, Instr.cls ≠ .rnd x nn) ∧ ∃ t, exec .cls State.reset = .next t :=
  ⟨nofun, nofun, nofun, _, rfl⟩

theorem witness_InvariantHoldsAtReset : Params.default.wf ∧ Params.wf ⟨1, 0, customaryFont, true⟩ := by decide

/-- A state in mid-run: one call deep, the divider at its last count. -/
def midRun : State := { (withStack 1 0x0202).withFetchWord 16 0x00EE with cyc := 9 }

theorem witness_EveryStepKeepsTheInvariant : Inv midRun ∧ ∃ t, step midRun = .next t :=
  ⟨⟨by decide, by decide, by decide, by decide, by decide,
    ⟨by decide, by decide, by decide, by decide, by decide⟩⟩, _, rfl⟩

theorem witness_BootedRunsKeepTheInvariant : Params.default.wf ∧
    ∃ s, (State.resetWith Params.default).loadImage [0x60, 0x05] = some s := ⟨by decide, _, rfl⟩

theorem witness_SafeRunCountsEveryCycle : Inv midRun ∧ midRun.safeFor 1 :=
  ⟨witness_EveryStepKeepsTheInvariant.1, rfl, fun t h => by
    have e : step midRun = .next (after midRun 0x00EE) := by rfl
    rw [e] at h
    injection h with h
    rw [← h]
    show (after midRun 0x00EE).fault.halted = false
    decide⟩

end Sys2Proof.Tests
end

section
/-! PROOF. The invariant of R32 holds at reset, survives the program load, and is kept by every operation, every meaning and
every step; so every run from a loaded image goes on and meets it. -/

namespace Sys2Proof.Machine

open Sys2Proof.Config

/-! ### Fault records as R152 and R153 leave them -/

/-- A filled record is sound when only a failed fetch is bound to have no word, and exactly DataOutOfRange has an address,
above 4095. -/
theorem FaultRecord.sound_of_raised (c : Cause) (w a : Word) (b : BitVec 17) (hword : c = .fetchOutOfRange → w = 0)
    (hnone : c ≠ .dataOutOfRange → b = 0) (hdata : c = .dataOutOfRange → 4096 ≤ b.toNat ∧ b.toNat ≤ 0xFFFF) :
    FaultRecord.Sound ⟨true, c.code, w, a, b⟩ := by
  have code_range : 1 ≤ c.code.toNat ∧ c.code.toNat ≤ 6 := by cases c <;> decide
  have code_fetch : c.code = 5 → c = .fetchOutOfRange := by cases c <;> decide
  have code_data : c.code = 6 ↔ c = .dataOutOfRange := by cases c <;> decide
  exact ⟨nofun, fun _ => code_range, fun _ h => hword (code_fetch h), fun _ h => hnone (mt code_data.2 h),
    fun _ h => hdata (code_data.1 h)⟩

/-- The empty record of reset is sound (R173). -/
theorem FaultRecord.reset_sound : FaultRecord.reset.Sound := ⟨fun _ => rfl, nofun, nofun, nofun, nofun⟩

/-- The address a DataOutOfRange names lies above memory and within 16 bits (R131). -/
theorem State.badAddr_bounds (s : State) : 4096 ≤ s.badAddr.toNat ∧ s.badAddr.toNat ≤ 0xFFFF := by
  have := s.index.isLt
  rw [s.badAddr_toNat]
  omega

/-! ### Bounds on the program counter -/

/-- Adding 2 to a pc of at most 0x1000 does not wrap (R18). -/
theorem pc_add_two_toNat {v : Word} (h : v.toNat ≤ 0x1000) : (v + 2).toNat = v.toNat + 2 := by
  rw [BitVec.toNat_add, show (2 : Word).toNat = 2 from rfl]
  omega

/-- An address immediate is at most 0x0FFF. -/
theorem zext12_le (nnn : Addr12) : (zext12 nnn).toNat ≤ 0x0FFF := by
  have := nnn.isLt
  rw [zext12_toNat]
  omega

/-- The largest target of `Bnnn` is 0x0FFF + 0xFF = 0x10FE (R18, R78). -/
theorem zext12_add_zext8_le (nnn : Addr12) (v : Byte) : (zext12 nnn + zext8 v).toNat ≤ 0x10FE := by
  have := nnn.isLt
  have := v.isLt
  rw [BitVec.toNat_add, zext12_toNat, zext8_toNat]
  omega

/-! ### The invariant at reset -/

/-- Reset meets the invariant under any legal parameters (R32, R33). -/
theorem Inv.resetWith {p : Params} (hp : p.wf) : Inv (State.resetWith p) where
  params := hp
  cyc := hp.2
  mem := Memory.reset_wf p
  pc := (by decide : (BitVec.ofNat 16 programBase).toNat ≤ 0x10FE)
  stack _ hk := absurd hk (Nat.not_lt_zero _)
  fault := FaultRecord.reset_sound

/-! ### Operations that keep the invariant -/

section

variable {s : State} (h : Inv s)

include h

theorem Inv.setReg (x : Reg) (v : Byte) : Inv (s.setReg x v) := { h with }

theorem Inv.setIndex (v : Word) : Inv (s.setIndex v) := { h with }

theorem Inv.setDt (v : Byte) : Inv (s.setDt v) := { h with }

theorem Inv.setSt (v : Byte) : Inv (s.setSt v) := { h with }

theorem Inv.setDisp (d : Vector (BitVec dispW) dispH) : Inv (s.setDisp d) := { h with }

theorem Inv.keyDrawn : Inv s.keyDrawn := { h with }

theorem Inv.rndDrawn : Inv s.rndDrawn := { h with }

theorem Inv.setPc {v : Word} (hv : v.toNat ≤ 0x10FE) : Inv (s.setPc v) := { h with pc := hv }

theorem Inv.setCyc {n : Nat} (hn : n < s.params.timerDivider) : Inv (s.setCyc n) := { h with cyc := hn }

theorem Inv.setMem {m : Memory} (hm : m.wf s.params) : Inv (s.setMem m) := { h with mem := hm }

/-- Raising a fault keeps the invariant when the record it fills is sound. -/
theorem Inv.raise {c : Cause} {w a : Word} {b : BitVec 17} (hf : FaultRecord.Sound ⟨true, c.code, w, a, b⟩) :
    Inv (s.raise c w a b) := { h with fault := hf }

/-- The faults of an execute phase that carry no address. -/
theorem Inv.raiseIn (i : Instr) {c : Cause} (hfetch : c ≠ .fetchOutOfRange) (hdata : c ≠ .dataOutOfRange) :
    Inv (s.raiseIn i c 0) :=
  h.raise (FaultRecord.sound_of_raised c _ _ _ (absurd · hfetch) (fun _ => rfl) (absurd · hdata))

theorem Inv.raiseData (i : Instr) : Inv (s.raiseData i) :=
  h.raise (FaultRecord.sound_of_raised _ _ _ _ nofun (absurd rfl ·) fun _ => s.badAddr_bounds)

/-- A pushed return address of at most 0x1000 keeps the live stack entries bounded (R77). -/
theorem Inv.push {v : Word} (hv : v.toNat ≤ 0x1000) (hsp : s.sp.val < stackDepth) : Inv (s.push v hsp) :=
  { h with
    stack := fun k hk => by
      simp only [State.push_stack, Fin.getElem_fin, Vector.getElem_set]
      split
      · exact hv
      · rename_i hne
        exact h.stack k (by simp only [State.push_sp] at hk; omega) }

/-- A popped pc is a live stack entry, and the entries left live were live before (R75). -/
theorem Inv.popPc (hsp : 0 < s.sp.val) : Inv (s.popPc hsp) := by
  have hdepth := s.sp.isLt
  have htop : s.sp.val - 1 < stackDepth := by omega
  exact { h with
    pc := Nat.le_trans (h.stack ⟨s.sp.val - 1, htop⟩ (Nat.sub_lt hsp Nat.one_pos)) (by decide)
    stack := fun k hk => h.stack k (by simp only [State.popPc_sp] at hk; omega) }

/-- A skip from an advanced pc stays below the bound (R89). -/
theorem Inv.skipIf (hpc : s.pc.toNat ≤ 0x1000) (b : Bool) : Inv (s.skipIf b) := by
  rw [s.skipIf_eq]
  refine h.setPc ?_
  split
  · rw [pc_add_two_toNat hpc]; omega
  · exact h.pc

/-- A store that passed the range check for its last offset keeps memory canonical (R125). -/
theorem Inv.storeAtIndex {m : Nat} {vs : List Byte} (hr : s.inRange m = true) (hlen : vs.length = m + 1) :
    Inv (s.storeAtIndex vs) :=
  h.setMem (s.storeAtIndex_wf vs h.mem (by rw [hlen, ← Nat.add_assoc]; exact Nat.succ_le_succ ((s.inRange_iff m).1 hr)))

theorem Inv.loadRegs (ks : List Reg) : Inv (s.loadRegs ks) := by
  obtain ⟨rs, heq, -⟩ := s.loadRegs_eq ks
  rw [heq]
  exact { h with }

/-- The end of a cycle counts below TIMER_DIVIDER: it restarts at 0 when the count reaches it (R62). -/
theorem Inv.endCycle : Inv s.endCycle := by
  obtain ⟨hdiv, -⟩ := h.params
  have hcyc := h.cyc
  by_cases ht : s.cyc + 1 = s.params.timerDivider
  · rw [s.endCycle_tick ht]
    exact ((h.setDt _).setSt _).setCyc hdiv
  · rw [s.endCycle_noTick ht]
    exact h.setCyc (by omega)

theorem Inv.finish : Inv s.finish := by
  unfold State.finish
  split
  · exact h
  · exact h.endCycle

/-- An image that is loaded fits, so its bytes stay inside memory (R49, R50). -/
theorem Inv.loadImage {image : List Byte} {t : State} (ht : s.loadImage image = some t) : Inv t := by
  unfold State.loadImage at ht
  split at ht
  · rename_i hfits
    cases ht
    exact h.setMem (Memory.writeBytes_wf _ _ _ _ h.mem (by simp only [memSize, programBase] at hfits ⊢; omega))
  · cases ht

/-! ### The execute phase and the step keep the invariant -/

/-- From a state that meets the invariant with pc as a fetch leaves it, every meaning answers a state that meets it. -/
theorem Inv.exec (hpc : s.pc.toNat ≤ 0x1000) (i : Instr) : ∃ t, exec i s = .next t ∧ Inv t := by
  refine (exec_next i s).imp fun t ht => ⟨ht, ?_⟩
  cases i with
  | cls => cases ht; exact h.setDisp _
  | ret =>
    cases ht
    split
    · exact h.popPc _
    · exact h.raiseIn _ nofun nofun
  | sys => cases ht; exact h.raiseIn _ nofun nofun
  | jp nnn => cases ht; exact h.setPc (Nat.le_trans (zext12_le nnn) (by decide))
  | call nnn =>
    cases ht
    split
    · exact (h.push hpc _).setPc (Nat.le_trans (zext12_le nnn) (by decide))
    · exact h.raiseIn _ nofun nofun
  | jpV0 nnn => cases ht; exact h.setPc (zext12_add_zext8_le nnn _)
  | seImm | sneImm | seReg | sneReg => cases ht; exact h.skipIf hpc _
  | skp | sknp => cases ht; exact (h.skipIf hpc _).keyDrawn
  | ldImm | addImm | ldReg | orReg | andReg | xorReg | ldVxDt => cases ht; exact h.setReg _ _
  | addReg | subReg | shr | shl => cases ht; exact (h.setReg _ _).setReg _ _
  | rnd => cases ht; exact (h.setReg _ _).rndDrawn
  | drw =>
    cases ht
    split
    · exact h.raiseData _
    · exact (h.setDisp _).setReg _ _
  | ldDtVx => cases ht; exact h.setDt _
  | ldStVx => cases ht; exact h.setSt _
  | ldI | addI | ldF => cases ht; exact h.setIndex _
  | ldB =>
    cases ht
    split
    · rename_i hr; exact h.storeAtIndex hr rfl
    · exact h.raiseData _
  | stRegs x =>
    cases ht
    split
    · rename_i hr; exact h.storeAtIndex hr (by simp)
    · exact h.raiseData _
  | ldRegs =>
    cases ht
    split
    · exact h.loadRegs _
    · exact h.raiseData _

/-- Every step from a state that meets the invariant answers a state that meets it. -/
theorem Inv.step {t : State} (ht : step s = .next t) : Inv t := by
  obtain ⟨-, rfl⟩ | ⟨-, -, rfl⟩ | ⟨-, hpc, -, rfl⟩ | ⟨-, hpc, i, u, -, hu, rfl⟩ := step_cases ht
  · exact h
  · exact h.raise (FaultRecord.sound_of_raised _ _ _ _ (fun _ => rfl) (fun _ => rfl) nofun)
  all_goals
    have hadv : (s.pc + 2).toNat ≤ 0x1000 := by rw [pc_add_two_toNat (by omega)]; omega
    have hfetch : Inv (s.setPc (s.pc + 2)) := h.setPc (by omega)
  · exact hfetch.raise (FaultRecord.sound_of_raised _ _ _ _ nofun (fun _ => rfl) nofun)
  · obtain ⟨u', hu', hinv⟩ := hfetch.exec hadv i
    cases hu.symm.trans hu'
    exact hinv.finish

end

/-! ### Runs -/

/-- A run's first step, when it answers a next state. -/
theorem run_succ {s t : State} (k : Nat) (h : step s = .next t) :
    Host.Core.run Sys2Proof.core (k + 1) s = Host.Core.run Sys2Proof.core k t := by
  simp only [Host.Core.run, Host.Check.core_step, h]

/-- What every step keeps holds after any number of cycles, and every run goes on to a next state (R9). -/
theorem run_keeps {P : State → Prop} (hstep : ∀ s t, P s → step s = .next t → P t) (k : Nat) {s : State} (hs : P s) :
    ∃ t, Host.Core.run Sys2Proof.core k s = .next t ∧ P t := by
  induction k generalizing s with
  | zero => exact ⟨s, rfl, hs⟩
  | succ k ih =>
    obtain ⟨t, ht⟩ := step_next s
    rw [run_succ k ht]
    exact ih (hstep s t hs ht)

/-- Settles O50: reset meets the invariant, loading an image and every step keep it, and every step answers a next state. -/
theorem bootedRunsKeepTheInvariant : Obligations.BootedRunsKeepTheInvariant := by
  intro p image s hp hload k
  have hboot : Inv s := (Inv.resetWith hp).loadImage hload
  exact run_keeps (fun _ _ h => h.step) k hboot

end Sys2Proof.Machine
end

section
/-! PROOF. What each operation and each meaning leaves unchanged (the writer tables of 10_state.md), and with it the count of
cycles along a safe run; the invariant at reset and through a step. -/

namespace Sys2Proof.Machine

open Sys2Proof.Config

/-! ### How frames compose -/

theorem Part.same_trans {p : Part} {s t u : State} (h : p.same s t) (h' : p.same t u) : p.same s u := by
  cases p
  case mem => exact fun a => (h' a).trans (h a)
  all_goals exact Eq.trans h' h

/-- Two changes in a row touch what either touches. -/
theorem UnchangedBut.trans {regs regs' : List Reg} {parts parts' : List Part} {s t u : State}
    (h : UnchangedBut regs parts s t) (h' : UnchangedBut regs' parts' t u) :
    UnchangedBut (regs ++ regs') (parts ++ parts') s u := by
  constructor
  · intro r hr
    rw [List.mem_append, not_or] at hr
    exact (h'.1 r hr.2).trans (h.1 r hr.1)
  · intro p hp
    rw [List.mem_append, not_or] at hp
    exact Part.same_trans (h.2 p hp.1) (h'.2 p hp.2)

/-- A frame may be widened. -/
theorem UnchangedBut.mono {regs regs' : List Reg} {parts parts' : List Part} {s t : State}
    (h : UnchangedBut regs parts s t) (hregs : regs ⊆ regs') (hparts : parts ⊆ parts') : UnchangedBut regs' parts' s t :=
  ⟨fun r hr => h.1 r (mt (@hregs r) hr), fun p hp => h.2 p (mt (@hparts p) hp)⟩

/-! ### The frame of each operation -/

theorem State.setReg_unchanged (s : State) (x : Reg) (v : Byte) : UnchangedBut [x] [] s (s.setReg x v) :=
  ⟨fun _ hr => s.setReg_reg_of_ne v (List.ne_of_not_mem_cons hr), fun p _ => by cases p <;> simp [Part.same]⟩

theorem State.setPc_unchanged (s : State) (v : Word) : UnchangedBut [] [.pc] s (s.setPc v) :=
  ⟨fun _ _ => rfl, fun p hp => by cases p <;> simp_all [Part.same]⟩

theorem State.setIndex_unchanged (s : State) (v : Word) : UnchangedBut [] [.index] s (s.setIndex v) :=
  ⟨fun _ _ => rfl, fun p hp => by cases p <;> simp_all [Part.same]⟩

theorem State.setDt_unchanged (s : State) (v : Byte) : UnchangedBut [] [.dt] s (s.setDt v) :=
  ⟨fun _ _ => rfl, fun p hp => by cases p <;> simp_all [Part.same]⟩

theorem State.setSt_unchanged (s : State) (v : Byte) : UnchangedBut [] [.st] s (s.setSt v) :=
  ⟨fun _ _ => rfl, fun p hp => by cases p <;> simp_all [Part.same]⟩

theorem State.setDisp_unchanged (s : State) (d : Vector (BitVec dispW) dispH) : UnchangedBut [] [.disp] s (s.setDisp d) :=
  ⟨fun _ _ => rfl, fun p hp => by cases p <;> simp_all [Part.same]⟩

theorem State.push_unchanged (s : State) (v : Word) (h : s.sp.val < stackDepth) :
    UnchangedBut [] [.sp, .stack] s (s.push v h) :=
  ⟨fun _ _ => rfl, fun p hp => by cases p <;> simp_all [Part.same]⟩

theorem State.popPc_unchanged (s : State) (h : 0 < s.sp.val) : UnchangedBut [] [.pc, .sp] s (s.popPc h) :=
  ⟨fun _ _ => rfl, fun p hp => by cases p <;> simp_all [Part.same]⟩

theorem State.keyDrawn_unchanged (s : State) : UnchangedBut [] [.keyDraws] s s.keyDrawn :=
  ⟨fun _ _ => rfl, fun p hp => by cases p <;> simp_all [Part.same]⟩

theorem State.rndDrawn_unchanged (s : State) : UnchangedBut [] [.rndDraws] s s.rndDrawn :=
  ⟨fun _ _ => rfl, fun p hp => by cases p <;> simp_all [Part.same]⟩

theorem State.skipIf_unchanged (s : State) (b : Bool) : UnchangedBut [] [.pc] s (s.skipIf b) := by
  rw [s.skipIf_eq]
  exact s.setPc_unchanged _

/-- The two writes of a shift (R101). -/
theorem State.shiftReg_unchanged (s : State) (x : Reg) (flag : Byte) (shift : Byte → Byte) :
    UnchangedBut [x, 15] [] s (s.shiftReg x flag shift) :=
  ((s.setReg_unchanged flagReg flag).trans (State.setReg_unchanged _ x _)).mono (by simp) (by simp)

theorem State.loadRegs_unchanged (s : State) (ks : List Reg) : UnchangedBut ks [] s (s.loadRegs ks) := by
  obtain ⟨_, -, hreg⟩ := s.loadRegs_eq ks
  exact ⟨fun r hr => by rw [hreg, if_neg hr], fun p _ => s.loadRegs_same ks p⟩

/-- An access that is range-checked first touches what the access touches, or the fault record alone (R125). -/
theorem State.checked_unchanged (s : State) {t : State} (i : Instr) {c : Prop} [Decidable c] {regs : List Reg}
    {parts : List Part} (h : UnchangedBut regs parts s t) :
    UnchangedBut regs (parts ++ [.fault]) s (if c then t else s.raiseData i) := by
  split
  · exact h.mono (List.Subset.refl _) (by simp)
  · exact (s.raise_unchanged _ _ _ _).mono (by simp) (by simp)

/-- A range-checked store at I leaves every byte outside the ones checked, whatever its outcome. -/
theorem State.checkedStore_byte_of_outside (s : State) (i : Instr) {m a : Nat} {vs : List Byte}
    (hlen : vs.length = m + 1) (ha : a < s.dataAddr 0 ∨ s.dataAddr m < a) :
    (if s.inRange m then s.storeAtIndex vs else s.raiseData i).byte a = s.byte a := by
  split
  · refine s.storeAtIndex_byte_of_outside vs a ?_
    simp only [State.dataAddr] at ha ⊢
    omega
  · rfl

/-! ### The frame of each meaning -/

/-- The execute phase writes only the registers of R15's table and the pieces of state of R17, R20 to R23, R28, R40. -/
theorem exec_unchanged {i : Instr} {s t : State} (ht : exec i s = .next t) :
    UnchangedBut (regsWritten i) (partsWritten i) s t := by
  cases i with
  | cls => cases ht; exact s.setDisp_unchanged _
  | ret =>
    cases ht
    split
    · exact (s.popPc_unchanged _).mono (by simp) (by decide)
    · exact (s.raise_unchanged _ _ _ _).mono (by simp) (by decide)
  | sys => cases ht; exact s.raise_unchanged _ _ _ _
  | jp | jpV0 => cases ht; exact s.setPc_unchanged _
  | call =>
    cases ht
    split
    · exact ((s.push_unchanged _ _).trans (State.setPc_unchanged _ _)).mono (by simp) (by simp [partsWritten])
    · exact (s.raise_unchanged _ _ _ _).mono (by simp) (by simp [partsWritten])
  | seImm | sneImm | seReg | sneReg => cases ht; exact s.skipIf_unchanged _
  | skp | sknp => cases ht; exact (s.skipIf_unchanged _).trans (State.keyDrawn_unchanged _)
  | ldImm | addImm | ldReg | orReg | andReg | xorReg | ldVxDt => cases ht; exact s.setReg_unchanged _ _
  | addReg | subReg => cases ht; exact (s.setReg_unchanged _ _).trans (State.setReg_unchanged _ _ _)
  | shr | shl => cases ht; exact s.shiftReg_unchanged _ _ _
  | rnd => cases ht; exact (s.setReg_unchanged _ _).trans (State.rndDrawn_unchanged _)
  | drw =>
    cases ht
    split
    · exact (s.raise_unchanged _ _ _ _).mono (by simp) (by simp [partsWritten])
    · exact ((s.setDisp_unchanged _).trans (State.setReg_unchanged _ _ _)).mono (by simp [regsWritten])
        (by simp [partsWritten])
  | ldI | addI | ldF => cases ht; exact s.setIndex_unchanged _
  | ldDtVx => cases ht; exact s.setDt_unchanged _
  | ldStVx => cases ht; exact s.setSt_unchanged _
  | ldB | stRegs => cases ht; exact s.checked_unchanged _ (s.storeAtIndex_unchanged _)
  | ldRegs => cases ht; exact s.checked_unchanged _ (s.loadRegs_unchanged _)

/-- Settles O46: the frame of each meaning, and for the two storing instructions the bytes outside the checked range. -/
theorem instructionsWriteOnlyWhatTheTablesList : Obligations.InstructionsWriteOnlyWhatTheTablesList := by
  intro i s t ht
  refine ⟨exec_unchanged ht, ?_, ?_⟩
  · rintro x rfl a ha
    cases ht
    exact s.checkedStore_byte_of_outside _ rfl ha
  · rintro x rfl a ha
    cases ht
    exact s.checkedStore_byte_of_outside _ (by simp) ha

/-! ### The invariant -/

/-- Settles O49: nothing, a fault with a sound record, or a meaning and the end of the cycle, each of which keeps it. -/
theorem everyStepKeepsTheInvariant : Obligations.EveryStepKeepsTheInvariant :=
  fun _ _ h ht => h.step ht

/-- Settles O48: a legal phase lies below the divider, and every other field of reset is zero, empty or PROGRAM_BASE. -/
theorem invariantHoldsAtReset : Obligations.InvariantHoldsAtReset :=
  ⟨fun _ hp => Inv.resetWith hp, Inv.resetWith (p := Params.default) (by decide)⟩

/-! ### Counting cycles -/

/-- No meaning writes the divider counter or the configuration (R24). -/
theorem exec_cyc_params {i : Instr} {s t : State} (ht : exec i s = .next t) : t.cyc = s.cyc ∧ t.params = s.params :=
  have hcyc : Part.cyc ∉ partsWritten i := by cases i <;> simp [partsWritten]
  have hparams : Part.params ∉ partsWritten i := by cases i <;> simp [partsWritten]
  ⟨(exec_unchanged ht).2 .cyc hcyc, (exec_unchanged ht).2 .params hparams⟩

/-- The end of a cycle leaves the configuration. -/
@[simp] theorem State.endCycle_params (s : State) : s.endCycle.params = s.params :=
  s.endCycle_unchanged.2 .params (by decide)

/-- The end of a cycle counts it modulo TIMER_DIVIDER (R62). -/
theorem State.endCycle_cyc (s : State) (h : s.cyc < s.params.timerDivider) :
    s.endCycle.cyc = (s.cyc + 1) % s.params.timerDivider := by
  by_cases ht : s.cyc + 1 = s.params.timerDivider
  · rw [s.endCycle_tick ht, State.setCyc_cyc, ht, Nat.mod_self]
  · rw [s.endCycle_noTick ht, State.setCyc_cyc, Nat.mod_eq_of_lt (by omega)]

/-- A step that does not halt counts one cycle and leaves the configuration (R24, R62). -/
theorem step_counts {s t : State} (hcyc : s.cyc < s.params.timerDivider) (ht : step s = .next t) (hrun : t.running) :
    t.params = s.params ∧ t.cyc = (s.cyc + 1) % s.params.timerDivider := by
  obtain ⟨hhalt, rfl⟩ | ⟨-, -, rfl⟩ | ⟨-, -, -, rfl⟩ | ⟨-, -, i, u, -, hu, rfl⟩ := step_cases ht
  · exact absurd (hrun.symm.trans hhalt) (by decide)
  · exact absurd (show true = false from hrun) (by decide)
  · exact absurd (show true = false from hrun) (by decide)
  · obtain ⟨hucyc, huparams⟩ := exec_cyc_params hu
    rw [State.setPc_cyc] at hucyc
    rw [State.setPc_params] at huparams
    have hurun : u.running := by rwa [State.running, State.finish_fault] at hrun
    rw [u.finish_of_running hurun, u.endCycle_params, u.endCycle_cyc (by rwa [hucyc, huparams]), hucyc, huparams]
    exact ⟨rfl, rfl⟩

/-- A safe run starts in a running state. -/
theorem State.safeFor.running {s : State} {k : Nat} (h : s.safeFor k) : s.running := by
  cases k with
  | zero => exact h
  | succ k => exact h.1

/-- Settles O51, by induction on the number of cycles: each step counts one, and the rest of the run is safe. -/
theorem safeRunCountsEveryCycle : Obligations.SafeRunCountsEveryCycle := by
  intro s k
  induction k generalizing s with
  | zero => exact fun hinv hsafe => ⟨s, rfl, hsafe, rfl, (Nat.mod_eq_of_lt hinv.cyc).symm⟩
  | succ k ih =>
    intro hinv hsafe
    obtain ⟨u, hu⟩ := step_next s
    have husafe : u.safeFor k := hsafe.2 u hu
    obtain ⟨huparams, hucyc⟩ := step_counts hinv.cyc hu husafe.running
    obtain ⟨t, hrun, htrun, htparams, htcyc⟩ := ih u (hinv.step hu) husafe
    refine ⟨t, (run_succ k hu).trans hrun, htrun, htparams.trans huparams, ?_⟩
    rw [htcyc, huparams, hucyc, Nat.mod_add_mod, Nat.add_assoc, Nat.add_comm 1 k]

end Sys2Proof.Machine
end

section
/-! PROOF. Canonical memories are determined by their reads; what placing a word where the next step fetches does to each
piece of the state; and the load of a program image, accepted and refused. -/

namespace Sys2Proof.Machine

open Sys2Proof.Config

/-! ### Reads of canonical memories -/

/-- An address below every listed one reads as the reset contents. -/
theorem Memory.read_of_below (p : Params) {m : Memory} {a : Nat} (h : ∀ c ∈ m, a < c.1) :
    m.read p a = resetByte p a := by
  induction m with
  | nil => rfl
  | cons c m ih =>
    obtain ⟨hc, hm⟩ := List.forall_mem_cons.1 h
    exact (if_neg (Nat.ne_of_gt hc)).trans (ih hm)

/-- The first listed address of a memory reads as its entry. -/
@[simp] theorem Memory.read_cons_same (p : Params) (k : Nat) (v : Byte) (m : Memory) :
    Memory.read p ((k, v) :: m) k = v := if_pos rfl

/-- At every other address the entries after the first decide. -/
theorem Memory.read_cons_of_ne (p : Params) {k a : Nat} (v : Byte) (m : Memory) (h : a ≠ k) :
    Memory.read p ((k, v) :: m) a = m.read p a := if_neg (Ne.symm h)

/-- In a canonical memory every entry lies above the first, and what follows the first is canonical. -/
theorem Memory.wf_cons {p : Params} {c : Host.Cell} {m : Memory} (h : Memory.wf p (c :: m)) :
    (∀ d ∈ m, c.1 < d.1) ∧ m.wf p := by
  obtain ⟨hsorted, hcells⟩ := h
  obtain ⟨habove, htail⟩ := List.pairwise_cons.1 hsorted
  exact ⟨habove, htail, (List.forall_mem_cons.1 hcells).2⟩

/-- The first listed address of a canonical memory does not read as the reset contents, so no memory with the same reads
lists only addresses above it. -/
theorem Memory.not_all_above_first {p : Params} {k : Nat} {v : Byte} {m m' : Memory} (hm : Memory.wf p ((k, v) :: m))
    (hread : ∀ a, Memory.read p ((k, v) :: m) a = m'.read p a) : ¬ ∀ c ∈ m', k < c.1 := fun habove =>
  (hm.2 (k, v) List.mem_cons_self).2 <| calc
    v = Memory.read p ((k, v) :: m) k := (Memory.read_cons_same p k v m).symm
    _ = m'.read p k := hread k
    _ = resetByte p k := Memory.read_of_below p habove

/-- The first listed address of a canonical memory is the least one whose byte differs from the reset contents, so a
canonical memory with the same reads does not start above it. -/
theorem Memory.first_le_first {p : Params} {k k' : Nat} {v v' : Byte} {m m' : Memory}
    (hm : Memory.wf p ((k, v) :: m)) (hm' : Memory.wf p ((k', v') :: m'))
    (hread : ∀ a, Memory.read p ((k, v) :: m) a = Memory.read p ((k', v') :: m') a) : k' ≤ k := by
  refine Nat.le_of_not_lt fun hlt => Memory.not_all_above_first hm hread ?_
  exact List.forall_mem_cons.2 ⟨hlt, fun d hd => Nat.lt_trans hlt ((Memory.wf_cons hm').1 d hd)⟩

/-- Settles O36, by induction on the lists: both start at the least address whose byte differs from the reset contents, with
that byte, and what follows reads alike. -/
theorem canonicalMemoryIsDeterminedByReads : Obligations.CanonicalMemoryIsDeterminedByReads := by
  intro p m m' hm hm' hread
  induction m generalizing m' with
  | nil =>
    cases m' with
    | nil => rfl
    | cons c' m' => exact absurd nofun (Memory.not_all_above_first hm' fun a => (hread a).symm)
  | cons c m ih =>
    cases m' with
    | nil => exact absurd nofun (Memory.not_all_above_first hm hread)
    | cons c' m' =>
      obtain ⟨k, v⟩ := c
      obtain ⟨k', v'⟩ := c'
      obtain rfl : k = k' := Nat.le_antisymm (Memory.first_le_first hm' hm fun a => (hread a).symm)
        (Memory.first_le_first hm hm' hread)
      obtain rfl : v = v' := by simpa only [Memory.read_cons_same] using hread k
      obtain ⟨habove, hm⟩ := Memory.wf_cons hm
      obtain ⟨habove', hm'⟩ := Memory.wf_cons hm'
      refine congrArg _ (ih m' hm hm' fun a => ?_)
      by_cases ha : a = k
      · subst ha
        rw [Memory.read_of_below p habove, Memory.read_of_below p habove']
      · simpa only [Memory.read_cons_of_ne p v _ ha] using hread a

/-! ### Placing a word where the next step fetches (log 12) -/

/-- A word can be fetched where `placeWord` puts one (R58). -/
theorem fetchAddr_le (s : State) : fetchAddr s ≤ 0x0FFE := by
  unfold fetchAddr
  split
  · decide
  · omega

/-- A pc at which a word can be fetched is where the word is put. -/
theorem fetchAddr_of_le {s : State} (h : s.pc.toNat ≤ 0x0FFE) : fetchAddr s = s.pc.toNat := if_neg (Nat.not_lt.2 h)

/-- A 16-bit word is placed as it is. -/
theorem State.withFetchWord_toNat (s : State) (w : Word) : s.withFetchWord 16 w.toNat = placeWord s w := by
  rw [State.withFetchWord, Nat.mod_eq_of_lt w.isLt, BitVec.ofNat_toNat, BitVec.setWidth_eq]

@[simp] theorem placeWord_mem (s : State) (w : Word) :
    (placeWord s w).mem = s.mem.writeBytes s.params (fetchAddr s) [hiByte w, loByte w] := rfl

@[simp] theorem placeWord_pc (s : State) (w : Word) : (placeWord s w).pc = BitVec.ofNat 16 (fetchAddr s) := rfl

@[simp] theorem placeWord_fault (s : State) (w : Word) :
    (placeWord s w).fault = if s.fault.halted then FaultRecord.reset else s.fault := rfl

theorem placeWord_pc_toNat (s : State) (w : Word) : (placeWord s w).pc.toNat = fetchAddr s :=
  (BitVec.toNat_ofNat ..).trans (Nat.mod_eq_of_lt (Nat.lt_of_le_of_lt (fetchAddr_le s) (by decide)))

/-- A byte read after a word was placed: one of its two bytes, else the old byte. -/
theorem placeWord_byte (s : State) (w : Word) (hm : s.mem.wf s.params) (a : Nat) :
    (placeWord s w).byte a =
      if a = fetchAddr s + 1 then loByte w else if a = fetchAddr s then hiByte w else s.byte a :=
  (Memory.read_write s.params _ (fetchAddr s + 1) a (loByte w) (Memory.write_sorted s.params s.mem _ _ hm.1)).trans
    (congrArg (ite _ _) (Memory.read_write s.params s.mem (fetchAddr s) a (hiByte w) hm.1))

/-- The two bytes stand high byte first (R37), so the placed word is the one fetched. -/
theorem placeWord_fetched (s : State) (w : Word) (hm : s.mem.wf s.params) : (placeWord s w).fetched = w := by
  have hhi : (placeWord s w).byte (fetchAddr s) = hiByte w := by simp [placeWord_byte s w hm]
  have hlo : (placeWord s w).byte (fetchAddr s + 1) = loByte w := by simp [placeWord_byte s w hm]
  rw [State.fetched, placeWord_pc_toNat, hhi, hlo, wordOf_bytes]

/-- Both bytes lie inside memory, so it stays canonical. -/
theorem placeWord_wf (s : State) (w : Word) (hm : s.mem.wf s.params) : (placeWord s w).mem.wf s.params := by
  rw [placeWord_mem]
  exact Memory.writeBytes_wf s.params [hiByte w, loByte w] s.mem (fetchAddr s) hm (Nat.add_le_add_right (fetchAddr_le s) 2)

/-- A halted core is taken out of the halt. -/
theorem placeWord_running (s : State) (w : Word) : (placeWord s w).running := by
  rw [State.running, placeWord_fault]
  split
  · rfl
  · rename_i h
    exact Bool.eq_false_of_not_eq_true h

/-- A running core keeps its fault record. -/
theorem placeWord_fault_of_running {s : State} (h : s.running) (w : Word) : (placeWord s w).fault = s.fault :=
  if_neg (Bool.eq_false_iff.1 h)

/-- A pc at which a word can be fetched stays. -/
theorem placeWord_pc_of_le {s : State} (h : s.pc.toNat ≤ 0x0FFE) (w : Word) : (placeWord s w).pc = s.pc := by
  rw [placeWord_pc, fetchAddr_of_le h, BitVec.ofNat_toNat, BitVec.setWidth_eq]

theorem placeWord_unchanged (s : State) (w : Word) : UnchangedBut [] [.pc, .mem, .fault] s (placeWord s w) :=
  ⟨fun _ _ => rfl, fun p hp => by cases p <;> simp_all [Part.same, placeWord]⟩

/-- Settles O7: each clause is what placing a word does to one piece of the state. -/
theorem placedWordIsFetchedNext : Obligations.PlacedWordIsFetchedNext := by
  intro s w hm
  simp only [s.withFetchWord_toNat w]
  refine ⟨placeWord_running s w, ?_, placeWord_fetched s w hm, placeWord_wf s w hm, placeWord_unchanged s w, ?_,
    fun hpc => placeWord_pc_of_le hpc w, fun hrun => placeWord_fault_of_running hrun w⟩
  · rw [placeWord_pc_toNat]
    exact fetchAddr_le s
  · intro a hne hne'
    rw [placeWord_pc_toNat] at hne hne'
    rw [placeWord_byte s w hm, if_neg hne', if_neg hne]

/-! ### Program load -/

/-- Replacing the memory changes memory alone. -/
theorem State.setMem_unchanged (s : State) (m : Memory) : UnchangedBut [] [.mem] s (s.setMem m) :=
  ⟨fun _ _ => rfl, fun p hp => by cases p <;> simp_all [Part.same]⟩

/-- Settles O44: the load is one write of the image's bytes at 0x200, inside memory because the image fits. -/
theorem loadedImageStandsAtTheBaseOffset : Obligations.LoadedImageStandsAtTheBaseOffset := by
  intro s image hm hlen
  refine ⟨_, s.loadImage_of_fits image hlen, ?_, ?_, s.setMem_unchanged _, ?_⟩
  · intro k hk
    refine (Memory.read_writeBytes s.params image s.mem programBase (0x200 + k) hm.1).trans ?_
    simp [programBase, hk]
  · intro a ha
    exact Memory.read_writeBytes_of_outside s.params image s.mem programBase a ha
  · exact Memory.writeBytes_wf s.params image s.mem programBase hm (Nat.add_le_add_left hlen programBase)

/-- Settles O45: the length test of the load fails. -/
theorem overlongImageIsRefused : Obligations.OverlongImageIsRefused :=
  fun _ _ h => if_neg (Nat.not_le.2 h)

end Sys2Proof.Machine
end

section
/-! PROOF. The encoder and the decoder are inverse to each other, and the decoder agrees with the masks and matches of the
opcode table and with the list of words without an instruction (30_encoding.md R54 to R60, R64, R69, R72); a step runs the
instruction decoded at pc (R61, R62). -/

namespace Sys2Proof

/-! ### A word from the fields that a row fixes and those it leaves free -/

theorem packNNN_of_fieldOp {w : Word} {op : Nibble} (hop : fieldOp w = op) : packNNN op (fieldNNN w) = w := by
  rw [← hop, packNNN_fields]

theorem packXNN_of_fields {w : Word} {op : Nibble} {nn : Byte} (hop : fieldOp w = op) (hnn : fieldNN w = nn) :
    packXNN op (fieldX w) nn = w := by
  rw [← hop, ← hnn, packXNN_fields]

theorem packXYN_of_fields {w : Word} {op n : Nibble} (hop : fieldOp w = op) (hn : fieldN w = n) :
    packXYN op (fieldX w) (nibOf (fieldY w)) n = w := by
  rw [← hop, ← hn, fieldY, nibOf_regOf, packXYN_fields]

/-- The low byte of formats R and D is Y, then the last nibble (R55). -/
theorem packXYN_eq_packXNN (op : Nibble) (x : Reg) (y n : Nibble) : packXYN op x y n = packXNN op x (y ++ n) := by
  simpa using (packXNN_fields (packXYN op x y n)).symm

/-- `Fn29` fixes its low byte, as the other instructions with first nibble F do. -/
theorem encode_ldF (digit : Nibble) : encode (.ldF digit) = packXNN 0xF (regOf digit) 0x29 :=
  packXYN_eq_packXNN _ _ _ _

/-- `0nnn` read off a word other than `00E0` and `00EE` is well-formed (R59). -/
theorem wf_sys_fieldNNN {w : Word} (hop : fieldOp w = 0x0) (hcls : w ≠ 0x00E0) (hret : w ≠ 0x00EE) :
    (Instr.sys (fieldNNN w)).wf = true := by
  have hw := packNNN_of_fieldOp hop
  simp only [Instr.wf, Bool.and_eq_true, bne_iff_ne]
  constructor <;> intro hnnn <;> rw [hnnn] at hw
  · exact hcls hw.symm
  · exact hret hw.symm

/-! ### What a mask and a match say of the fields (R69) -/

section

variable {w m : Word}

theorem fieldOp_of_and_F000 {op : Nibble} (h : w &&& 0xF000 = packNNN op 0) : fieldOp w = op := by
  rw [and_F000] at h
  simpa using congrArg fieldOp h

theorem packXYN_of_and_F00F {op n : Nibble} (h : w &&& 0xF00F = packXYN op 0 0 n) :
    packXYN op (fieldX w) (nibOf (fieldY w)) n = w := by
  rw [and_F00F] at h
  exact packXYN_of_fields (by simpa using congrArg fieldOp h) (by simpa using congrArg fieldN h)

theorem packXNN_of_and_F0FF {op : Nibble} {nn : Byte} (h : w &&& 0xF0FF = packXNN op 0 nn) :
    packXNN op (fieldX w) nn = w := by
  rw [and_F0FF] at h
  exact packXNN_of_fields (by simpa using congrArg fieldOp h) (by simpa using congrArg fieldNN h)

theorem eq_of_and_FFFF (h : w &&& 0xFFFF = m) : m = w := h.symm.trans BitVec.and_allOnes

end

/-! ### The opcode table and the encoder -/

open Laws in
/-- The word of a well-formed instruction selects the instruction's row. -/
theorem row_selects_encode : ∀ i : Instr, i.wf = true → i.row.selects (encode i)
  | .cls => EncodesInRow.cls
  | .ret => EncodesInRow.ret
  | .sys nnn => EncodesInRow.sys nnn
  | .jp nnn => EncodesInRow.jp nnn
  | .call nnn => EncodesInRow.call nnn
  | .seImm x nn => EncodesInRow.seImm x nn
  | .sneImm x nn => EncodesInRow.sneImm x nn
  | .seReg x y => EncodesInRow.seReg x y
  | .ldImm x nn => EncodesInRow.ldImm x nn
  | .addImm x nn => EncodesInRow.addImm x nn
  | .ldReg x y => EncodesInRow.ldReg x y
  | .orReg x y => EncodesInRow.orReg x y
  | .andReg x y => EncodesInRow.andReg x y
  | .xorReg x y => EncodesInRow.xorReg x y
  | .addReg x y => EncodesInRow.addReg x y
  | .subReg x y => EncodesInRow.subReg x y
  | .shr x ignored => EncodesInRow.shr x ignored
  | .shl x ignored => EncodesInRow.shl x ignored
  | .sneReg x y => EncodesInRow.sneReg x y
  | .ldI nnn => EncodesInRow.ldI nnn
  | .jpV0 nnn => EncodesInRow.jpV0 nnn
  | .rnd x nn => EncodesInRow.rnd x nn
  | .drw x y n => EncodesInRow.drw x y n
  | .skp x => EncodesInRow.skp x
  | .sknp x => EncodesInRow.sknp x
  | .ldVxDt x => EncodesInRow.ldVxDt x
  | .ldDtVx x => EncodesInRow.ldDtVx x
  | .ldStVx x => EncodesInRow.ldStVx x
  | .addI x => EncodesInRow.addI x
  | .ldF digit => EncodesInRow.ldF digit
  | .ldB x => EncodesInRow.ldB x
  | .stRegs x => EncodesInRow.stRegs x
  | .ldRegs x => EncodesInRow.ldRegs x

/-- The instruction of the same constructor whose operands are the fields of a word. -/
def Instr.withFields (w : Word) : Instr → Instr
  | .cls => .cls
  | .ret => .ret
  | .sys _ => .sys (fieldNNN w)
  | .jp _ => .jp (fieldNNN w)
  | .call _ => .call (fieldNNN w)
  | .seImm _ _ => .seImm (fieldX w) (fieldNN w)
  | .sneImm _ _ => .sneImm (fieldX w) (fieldNN w)
  | .seReg _ _ => .seReg (fieldX w) (fieldY w)
  | .ldImm _ _ => .ldImm (fieldX w) (fieldNN w)
  | .addImm _ _ => .addImm (fieldX w) (fieldNN w)
  | .ldReg _ _ => .ldReg (fieldX w) (fieldY w)
  | .orReg _ _ => .orReg (fieldX w) (fieldY w)
  | .andReg _ _ => .andReg (fieldX w) (fieldY w)
  | .xorReg _ _ => .xorReg (fieldX w) (fieldY w)
  | .addReg _ _ => .addReg (fieldX w) (fieldY w)
  | .subReg _ _ => .subReg (fieldX w) (fieldY w)
  | .shr _ _ => .shr (fieldX w) (fieldYNib w)
  | .shl _ _ => .shl (fieldX w) (fieldYNib w)
  | .sneReg _ _ => .sneReg (fieldX w) (fieldY w)
  | .ldI _ => .ldI (fieldNNN w)
  | .jpV0 _ => .jpV0 (fieldNNN w)
  | .rnd _ _ => .rnd (fieldX w) (fieldNN w)
  | .drw _ _ _ => .drw (fieldX w) (fieldY w) (fieldN w)
  | .skp _ => .skp (fieldX w)
  | .sknp _ => .sknp (fieldX w)
  | .ldVxDt _ => .ldVxDt (fieldX w)
  | .ldDtVx _ => .ldDtVx (fieldX w)
  | .ldStVx _ => .ldStVx (fieldX w)
  | .addI _ => .addI (fieldX w)
  | .ldF _ => .ldF (fieldXNib w)
  | .ldB _ => .ldB (fieldX w)
  | .stRegs _ => .stRegs (fieldX w)
  | .ldRegs _ => .ldRegs (fieldX w)

/-- Reading operands off a word does not change the row. -/
@[simp] theorem Instr.row_withFields (w : Word) (j : Instr) : (j.withFields w).row = j.row := by cases j <;> rfl

/-- A word that selects a row is the encoding of that row's instruction with the word's fields, which is well-formed. -/
theorem encode_withFields {w : Word} {j : Instr} (h : j.row.selects w) :
    (j.withFields w).wf = true ∧ encode (j.withFields w) = w := by
  obtain ⟨hmask, hprec⟩ := h
  cases j with
  | cls | ret => exact ⟨rfl, eq_of_and_FFFF hmask⟩
  | sys =>
    have hop : fieldOp w = 0x0 := fieldOp_of_and_F000 hmask
    exact ⟨wf_sys_fieldNNN hop (hprec rfl).1 (hprec rfl).2, packNNN_of_fieldOp hop⟩
  | jp | call | ldI | jpV0 => exact ⟨rfl, packNNN_of_fieldOp (fieldOp_of_and_F000 hmask)⟩
  | seImm | sneImm | ldImm | addImm | rnd => exact ⟨rfl, packXNN_of_fields (fieldOp_of_and_F000 hmask) rfl⟩
  | drw => exact ⟨rfl, packXYN_of_fields (fieldOp_of_and_F000 hmask) rfl⟩
  | seReg | sneReg | ldReg | orReg | andReg | xorReg | addReg | subReg | shr | shl =>
    exact ⟨rfl, packXYN_of_and_F00F hmask⟩
  | skp | sknp | ldVxDt | ldDtVx | ldStVx | addI | ldB | stRegs | ldRegs => exact ⟨rfl, packXNN_of_and_F0FF hmask⟩
  | ldF => exact ⟨rfl, (encode_ldF _).trans (packXNN_of_and_F0FF hmask)⟩

/-! ### Decoding an encoded instruction -/

/-- The decoder gives back a well-formed instruction from its word. -/
theorem decodeWord_encode {i : Instr} (hwf : i.wf = true) : decodeWord (encode i) = .ok i := by
  cases i with
  | cls | ret => rfl
  | sys nnn =>
    obtain ⟨hcls, hret⟩ := (row_selects_encode (.sys nnn) hwf).2 rfl
    rw [encode] at hcls hret
    simp [encode, decodeWord, decode0, hcls, hret]
  | jp | call | ldI | jpV0 | seImm | sneImm | ldImm | addImm | rnd | seReg | sneReg | drw => simp [encode, decodeWord]
  | ldReg | orReg | andReg | xorReg | addReg | subReg | shr | shl => simp [encode, decodeWord, decode8]
  | skp | sknp => simp [encode, decodeWord, decodeE]
  | ldF => simp [encode_ldF, decodeWord, decodeF]
  | ldVxDt | ldDtVx | ldStVx | addI | ldB | stRegs | ldRegs => simp [encode, decodeWord, decodeF]

/-- Settles O1: the two bytes of a word in memory order make the word again. -/
theorem decodeOfEncodeIsIdentity : Obligations.DecodeOfEncodeIsIdentity := by
  intro i hwf
  refine ⟨decodeWord_encode hwf, fun rest => ?_⟩
  rw [decode, wordOf_bytes, decodeWord_encode hwf]

/-! ### Encoding a decoded word -/

theorem encode_decode0 {w : Word} (hop : fieldOp w = 0x0) : (decode0 w).wf = true ∧ encode (decode0 w) = w := by
  unfold decode0
  split_ifs with hcls hret
  · exact ⟨rfl, hcls.symm⟩
  · exact ⟨rfl, hret.symm⟩
  · exact ⟨wf_sys_fieldNNN hop hcls hret, packNNN_of_fieldOp hop⟩

section

variable {w : Word} {i : Instr}

theorem encode_of_decode8 (hop : fieldOp w = 0x8) (h : decode8 w = .ok i) : i.wf = true ∧ encode i = w := by
  unfold decode8 at h
  split_ifs at h <;> cases h
  all_goals exact ⟨rfl, packXYN_of_fields hop (by assumption)⟩

theorem encode_of_decodeE (hop : fieldOp w = 0xE) (h : decodeE w = .ok i) : i.wf = true ∧ encode i = w := by
  unfold decodeE at h
  split_ifs at h <;> cases h
  all_goals exact ⟨rfl, packXNN_of_fields hop (by assumption)⟩

theorem encode_of_decodeF (hop : fieldOp w = 0xF) (h : decodeF w = .ok i) : i.wf = true ∧ encode i = w := by
  unfold decodeF at h
  split_ifs at h with h07 h15 h18 h1E h29 h33 h55 h65 <;> cases h
  · exact ⟨rfl, packXNN_of_fields hop h07⟩
  · exact ⟨rfl, packXNN_of_fields hop h15⟩
  · exact ⟨rfl, packXNN_of_fields hop h18⟩
  · exact ⟨rfl, packXNN_of_fields hop h1E⟩
  · exact ⟨rfl, (encode_ldF _).trans (packXNN_of_fields hop h29)⟩
  · exact ⟨rfl, packXNN_of_fields hop h33⟩
  · exact ⟨rfl, packXNN_of_fields hop h55⟩
  · exact ⟨rfl, packXNN_of_fields hop h65⟩

/-- Every branch of the decoder packs the fields it read into the word again. -/
theorem encode_of_decodeWord (h : decodeWord w = .ok i) : i.wf = true ∧ encode i = w := by
  rcases nibble_cases (fieldOp w) with hop | hop | hop | hop | hop | hop | hop | hop | hop | hop | hop | hop | hop | hop |
    hop | hop <;> simp only [decodeWord, hop, BitVec.ofNat_eq_ofNat, BitVec.reduceEq, if_true, if_false] at h
  · cases h; exact encode_decode0 hop
  · cases h; exact ⟨rfl, packNNN_of_fieldOp hop⟩
  · cases h; exact ⟨rfl, packNNN_of_fieldOp hop⟩
  · cases h; exact ⟨rfl, packXNN_of_fields hop rfl⟩
  · cases h; exact ⟨rfl, packXNN_of_fields hop rfl⟩
  · split_ifs at h with hn
    cases h
    exact ⟨rfl, packXYN_of_fields hop hn⟩
  · cases h; exact ⟨rfl, packXNN_of_fields hop rfl⟩
  · cases h; exact ⟨rfl, packXNN_of_fields hop rfl⟩
  · exact encode_of_decode8 hop h
  · split_ifs at h with hn
    cases h
    exact ⟨rfl, packXYN_of_fields hop hn⟩
  · cases h; exact ⟨rfl, packNNN_of_fieldOp hop⟩
  · cases h; exact ⟨rfl, packNNN_of_fieldOp hop⟩
  · cases h; exact ⟨rfl, packXNN_of_fields hop rfl⟩
  · cases h; exact ⟨rfl, packXYN_of_fields hop rfl⟩
  · exact encode_of_decodeE hop h
  · exact encode_of_decodeF hop h

end

/-- Settles O2, by the branches of the decoder. -/
theorem encodeOfDecodeIsIdentity : Obligations.EncodeOfDecodeIsIdentity := fun _ _ h => encode_of_decodeWord h

/-! ### The decoder and the opcode table -/

/-- A word selects a row exactly when it decodes to an instruction of that row. -/
theorem selects_iff_decodeWord (w : Word) (j : Instr) :
    j.row.selects w ↔ ∃ i, decodeWord w = .ok i ∧ i.row = j.row := by
  constructor
  · intro hsel
    obtain ⟨hwf, henc⟩ := encode_withFields hsel
    refine ⟨j.withFields w, ?_, j.row_withFields w⟩
    calc decodeWord w = decodeWord (encode (j.withFields w)) := by rw [henc]
      _ = .ok (j.withFields w) := decodeWord_encode hwf
  · rintro ⟨i, hdec, hrow⟩
    obtain ⟨hwf, henc⟩ := encode_of_decodeWord hdec
    rw [← hrow, ← henc]
    exact row_selects_encode i hwf

/-- Settles O3: selection is decoding to the row, so a rejected word selects none, and one that decodes selects its own. -/
theorem decoderFollowsTheOpcodeTable : Obligations.DecoderFollowsTheOpcodeTable := by
  refine fun w => ⟨selects_iff_decodeWord w, ?_⟩
  simp only [selects_iff_decodeWord]
  cases hdec : decodeWord w with
  | error r => simp
  | ok i => simp

/-! ### The rejected words (R72) -/

theorem decode8_rejects_iff (w : Word) : (∃ r, decode8 w = .error r) ↔
    fieldN w ∈ [0x7#4, 0x8#4, 0x9#4, 0xA#4, 0xB#4, 0xC#4, 0xD#4, 0xF#4] := by
  rcases nibble_cases (fieldN w) with hn | hn | hn | hn | hn | hn | hn | hn | hn | hn | hn | hn | hn | hn | hn | hn <;>
    simp [decode8, hn]

theorem decodeE_rejects_iff (w : Word) : (∃ r, decodeE w = .error r) ↔ fieldNN w ∉ [0x9E#8, 0xA1#8] := by
  unfold decodeE
  split_ifs <;> simp [*]

theorem decodeF_rejects_iff (w : Word) : (∃ r, decodeF w = .error r) ↔
    fieldNN w ∉ [0x07#8, 0x15#8, 0x18#8, 0x1E#8, 0x29#8, 0x33#8, 0x55#8, 0x65#8] := by
  unfold decodeF
  split_ifs <;> simp [*]

/-- A branch that decodes on one condition rejects on its negation. -/
theorem ite_ok_error_rejects_iff {c : Prop} [Decidable c] {i : Instr} {q : Reject} :
    (∃ r, (if c then Except.ok i else .error q) = .error r) ↔ ¬ c := by
  split_ifs with hc <;> simp [hc]

/-- Settles O4: only first nibbles 5, 8, 9, E and F reject words, each by what follows the nibble. -/
theorem illegalWordsAreTheListedOnes : Obligations.IllegalWordsAreTheListedOnes := by
  intro w
  rcases nibble_cases (fieldOp w) with hop | hop | hop | hop | hop | hop | hop | hop | hop | hop | hop | hop | hop | hop |
    hop | hop <;>
    simp [decodeWord, hop, ite_ok_error_rejects_iff, decode8_rejects_iff, decodeE_rejects_iff, decodeF_rejects_iff]

end Sys2Proof

namespace Sys2Proof.Machine

/-! ### A step runs the decoded instruction -/

/-- A running core with an instruction at pc runs it on the state with pc advanced, then the rest of the cycle (R62). -/
theorem step_of_decodes {s t : State} {i : Instr} (hrun : s.running) (hpc : s.pc.toNat ≤ 0x0FFE)
    (hdec : decodeWord s.fetched = .ok i) (hexec : exec i (s.setPc (s.pc + 2)) = .next t) :
    step s = .next t.finish := by
  simp only [step, cycle, runWord, show s.fault.halted = false from hrun, Bool.false_eq_true, if_false,
    s.fetch_inRange hpc, hdec, hexec]

/-- Settles O6: the rest of the cycle is its end, unless the instruction halted the core. -/
theorem stepRunsTheDecodedInstruction : Obligations.StepRunsTheDecodedInstruction := by
  intro s i hrun hpc hdec
  obtain ⟨t, hexec⟩ := exec_next i (s.setPc (s.pc + 2))
  exact ⟨t, hexec, step_of_decodes hrun hpc hdec hexec⟩

end Sys2Proof.Machine
end

section
/-! PROOF. Control transfer (40_control_flow.md R73 to R79): what the two jumps, the call, the return and the native call do
to the state, and that a call whose target returns comes back to the next instruction at the old stack depth. -/

namespace Sys2Proof.Machine

open Sys2Proof.Config

/-! ### The meaning of each control transfer -/

theorem exec_jp (nnn : Addr12) (s : State) : exec (.jp nnn) s = .next (s.setPc (zext12 nnn)) := rfl

theorem exec_jpV0 (nnn : Addr12) (s : State) :
    exec (.jpV0 nnn) s = .next (s.setPc (zext12 nnn + zext8 (s.reg 0))) := rfl

theorem exec_sys (nnn : Addr12) (s : State) :
    exec (.sys nnn) s = .next (s.raiseIn (.sys nnn) .unsupportedNativeCall 0) := rfl

/-- A call with room on the stack pushes the advanced pc and jumps (R77). -/
theorem exec_call_of_room (nnn : Addr12) {s : State} (h : s.sp.val < stackDepth) :
    exec (.call nnn) s = .next ((s.push s.pc h).setPc (zext12 nnn)) := congrArg _ (dif_pos h)

/-- A call with a full stack halts (R77). -/
theorem exec_call_of_full (nnn : Addr12) {s : State} (h : s.sp.val = stackDepth) :
    exec (.call nnn) s = .next (s.raiseIn (.call nnn) .stackOverflow 0) := congrArg _ (dif_neg (Nat.not_lt.2 h.ge))

/-- A return with a nonempty stack pops into pc (R75). -/
theorem exec_ret_of_nonempty {s : State} (h : 0 < s.sp.val) : exec .ret s = .next (s.popPc h) := congrArg _ (dif_pos h)

/-- A return with an empty stack halts (R75). -/
theorem exec_ret_of_empty {s : State} (h : s.sp.val = 0) :
    exec .ret s = .next (s.raiseIn .ret .stackUnderflow 0) := congrArg _ (dif_neg (Nat.not_lt.2 h.le))

/-! ### Jumps and the native call -/

/-- The target of `Bnnn` is an exact sum: it stays far below 65536 (R78). -/
theorem zext12_add_zext8_toNat (nnn : Addr12) (v : Byte) : (zext12 nnn + zext8 v).toNat = nnn.toNat + v.toNat := by
  have := nnn.isLt
  have := v.isLt
  rw [BitVec.toNat_add, zext12_toNat, zext8_toNat]
  omega

/-- Settles O15: both meanings are one write of pc. -/
theorem jumpsSetPcAlone : Obligations.JumpsSetPcAlone := fun nnn s =>
  ⟨⟨_, exec_jp nnn s, zext12_toNat nnn, s.setPc_unchanged _⟩,
    ⟨_, exec_jpV0 nnn s, zext12_add_zext8_toNat nnn _, s.setPc_unchanged _⟩⟩

/-- Settles O19: the meaning raises a fault from every state. -/
theorem nativeCallAlwaysHalts : Obligations.NativeCallAlwaysHalts := fun nnn s =>
  ⟨_, exec_sys nnn s, rfl, s.raise_unchanged _ _ _ _⟩

/-! ### The call and the return -/

/-- A push writes the slot at the old depth and no other (R23, R77). -/
theorem State.push_stack_getElem (s : State) (v : Word) (h : s.sp.val < stackDepth) (k : Fin stackDepth) :
    (s.push v h).stack[k] = if k.val = s.sp.val then v else s.stack[k] := by
  simp only [State.push_stack, Fin.getElem_fin, Vector.getElem_set, eq_comm]

/-- Settles O16: with room a push and then a jump, with a full stack a fault. -/
theorem callPushesNextAddressAndJumps : Obligations.CallPushesNextAddressAndJumps := by
  intro nnn s
  constructor
  · intro hroom
    have hframe := (s.push_unchanged s.pc hroom).trans (State.setPc_unchanged _ (zext12 nnn))
    exact ⟨_, exec_call_of_room nnn hroom, zext12_toNat nnn, rfl, s.push_stack_getElem s.pc hroom,
      hframe.mono (by simp) (by simp)⟩
  · intro hfull
    exact ⟨_, exec_call_of_full nnn hfull, rfl, s.raise_unchanged _ _ _ _⟩

/-- Settles O17: with a nonempty stack a pop into pc, with an empty one a fault. -/
theorem returnPopsIntoPc : Obligations.ReturnPopsIntoPc := by
  intro s
  constructor
  · intro hsp
    refine ⟨_, exec_ret_of_nonempty hsp, Nat.sub_add_cancel hsp, fun k hk => ?_, s.popPc_unchanged hsp⟩
    simp [← hk]
  · intro hempty
    exact ⟨_, exec_ret_of_empty hempty, rfl, s.raise_unchanged _ _ _ _⟩

/-! ### What the rest of a cycle leaves to the next fetch -/

/-- The rest of a cycle touches at most the timers and the divider counter (R62). -/
theorem State.finish_unchanged (s : State) : UnchangedBut [] [.dt, .st, .cyc] s s.finish := by
  unfold State.finish
  split
  · exact ⟨fun _ _ => rfl, fun p _ => by cases p <;> simp [Part.same]⟩
  · exact s.endCycle_unchanged

@[simp] theorem State.finish_pc (s : State) : s.finish.pc = s.pc := s.finish_unchanged.2 .pc (by decide)

@[simp] theorem State.finish_sp (s : State) : s.finish.sp = s.sp := s.finish_unchanged.2 .sp (by decide)

@[simp] theorem State.finish_stack (s : State) : s.finish.stack = s.stack := s.finish_unchanged.2 .stack (by decide)

@[simp] theorem State.finish_byte (s : State) (a : Nat) : s.finish.byte a = s.byte a :=
  s.finish_unchanged.2 .mem (by decide) a

/-! ### A call and its return, as steps -/

/-- The state in which the cycle of a call with room ends: the advanced pc pushed, pc at the target. -/
def State.afterCall (s : State) (nnn : Addr12) (h : s.sp.val < stackDepth) : State :=
  (((s.setPc (s.pc + 2)).push (s.pc + 2) h).setPc (zext12 nnn)).finish

section

variable (s : State) (nnn : Addr12) (h : s.sp.val < stackDepth)

@[simp] theorem State.afterCall_pc : (s.afterCall nnn h).pc = zext12 nnn := by simp [State.afterCall]

@[simp] theorem State.afterCall_sp : (s.afterCall nnn h).sp.val = s.sp.val + 1 := by simp [State.afterCall]

/-- The newest stack entry is the address of the next instruction (R77). -/
theorem State.afterCall_newest : (s.afterCall nnn h).stack[s.sp.val] = s.pc + 2 := by simp [State.afterCall]

@[simp] theorem State.afterCall_fault : (s.afterCall nnn h).fault = s.fault := by simp [State.afterCall]

/-- The next fetch reads the word at the target. -/
theorem State.afterCall_fetched :
    (s.afterCall nnn h).fetched = wordOf (s.byte nnn.toNat) (s.byte (nnn.toNat + 1)) := by
  simp [State.fetched, State.afterCall]

end

/-- A step of a running core at a call with room (R62, R77). -/
theorem step_call {s : State} {nnn : Addr12} (hrun : s.running) (hpc : s.pc.toNat ≤ 0x0FFE)
    (hdec : decodeWord s.fetched = .ok (.call nnn)) (h : s.sp.val < stackDepth) :
    step s = .next (s.afterCall nnn h) :=
  step_of_decodes hrun hpc hdec (exec_call_of_room (s := s.setPc (s.pc + 2)) nnn h)

/-- A step of a running core at a return with a nonempty stack (R62, R75). -/
theorem step_ret {s : State} (hrun : s.running) (hpc : s.pc.toNat ≤ 0x0FFE)
    (hdec : decodeWord s.fetched = .ok .ret) (h : 0 < s.sp.val) :
    step s = .next ((s.setPc (s.pc + 2)).popPc h).finish :=
  step_of_decodes hrun hpc hdec (exec_ret_of_nonempty (s := s.setPc (s.pc + 2)) h)

/-- Settles O18: the first cycle is a call with room; the second fetches `00EE` at its target and pops what it pushed. -/
theorem callThenReturnRestoresPcAndDepth : Obligations.CallThenReturnRestoresPcAndDepth := by
  intro s nnn hrun hpc hroom hcall htarget hword
  have hcallStep := step_call hrun hpc hcall hroom
  have hrunCall : (s.afterCall nnn hroom).running := by rwa [State.running, State.afterCall_fault]
  have hpcCall : (s.afterCall nnn hroom).pc.toNat ≤ 0x0FFE := by rwa [State.afterCall_pc, zext12_toNat]
  have hret : decodeWord (s.afterCall nnn hroom).fetched = .ok .ret := by
    rw [State.afterCall_fetched, hword]
    rfl
  have hnonempty : 0 < (s.afterCall nnn hroom).sp.val := by
    rw [State.afterCall_sp]
    exact Nat.succ_pos _
  have hretStep := step_ret hrunCall hpcCall hret hnonempty
  refine ⟨_, (run_succ 1 hcallStep).trans (run_succ 0 hretStep), ?_, ?_, ?_⟩
  · simpa using s.afterCall_newest nnn hroom
  · simp
  · simpa [State.running] using hrun

end Sys2Proof.Machine
end

section
/-! PROOF. The conditional skips and their two inputs (41_skips.md): what a skip does to pc, which line of the sample a key
skip follows, and that every instruction but the key skips and the random load does the same whatever the inputs are. -/

namespace Sys2Proof.Machine

open Sys2Proof.Config

/-! ### No other instruction depends on an input (R98, R117) -/

/-- The same state about to see other samples: the free inputs are selected by the two counters of draws (logs 6, 7). -/
def State.withDraws (s : State) (k r : Nat) : State := { s with keyDraws := k, rndDraws := r }

section

variable (s : State) (k r : Nat)

theorem State.withDraws_skipIf (b : Bool) : (s.withDraws k r).skipIf b = (s.skipIf b).withDraws k r := by
  cases b <;> rfl

theorem State.withDraws_loadRegs (xs : List Reg) :
    (s.withDraws k r).loadRegs xs = (s.loadRegs xs).withDraws k r := by
  induction xs generalizing s with
  | nil => rfl
  | cons x xs ih => exact ih (s.setReg x (s.byte (s.dataAddr x.val)))

end

/-- The execute phase of an instruction other than the key skips and the random load commutes with a change of the
counters: its conditions and operands do not read them, and each operation it is made of carries them along. -/
theorem exec_withDraws {i : Instr} {s t : State} (k r : Nat) (hskp : ∀ x, i ≠ .skp x) (hsknp : ∀ x, i ≠ .sknp x)
    (hrnd : ∀ x nn, i ≠ .rnd x nn) (ht : exec i s = .next t) :
    exec i (s.withDraws k r) = .next (t.withDraws k r) := by
  cases i with
  | skp x => exact absurd rfl (hskp x)
  | sknp x => exact absurd rfl (hsknp x)
  | rnd x nn => exact absurd rfl (hrnd x nn)
  | seImm | sneImm | seReg | sneReg => cases ht; exact congrArg _ (s.withDraws_skipIf k r _)
  | ret | call => cases ht; rw [apply_dite (State.withDraws · k r)]; rfl
  | drw | ldB | stRegs => cases ht; rw [apply_ite (State.withDraws · k r)]; rfl
  | ldRegs => cases ht; rw [apply_ite (State.withDraws · k r), ← s.withDraws_loadRegs k r]; rfl
  | cls | sys | jp | jpV0 | ldImm | addImm | ldReg | orReg | andReg | xorReg | addReg | subReg | shr | shl | ldI | addI
  | ldF | ldVxDt | ldDtVx | ldStVx => cases ht; rfl

/-- Settles O47: the execute phase of every other instruction commutes with a change of the two counters of draws. -/
theorem otherInstructionsDependOnNoInput : Obligations.OtherInstructionsDependOnNoInput :=
  fun _ _ _ k r hskp hsknp hrnd ht => exec_withDraws k r hskp hsknp hrnd ht

/-! ### What a conditional skip does (R82, R89) -/

section

variable (s : State) (b : Bool)

@[simp] theorem State.skipIf_pc : (s.skipIf b).pc = if b then s.pc + 2 else s.pc := by
  rw [s.skipIf_eq, State.setPc_pc]

@[simp] theorem State.skipIf_keyDraws : (s.skipIf b).keyDraws = s.keyDraws := by
  rw [s.skipIf_eq, State.setPc_keyDraws]

/-- A skip on the negation of a condition. -/
theorem State.skipIf_not_pc : (s.skipIf !b).pc = if b then s.pc else s.pc + 2 := by
  cases b <;> rfl

end

/-- Settles O20: each of the four is one conditional skip, two of them on the negated comparison. -/
theorem registerSkipsAddTwoWhenTheyHold : Obligations.RegisterSkipsAddTwoWhenTheyHold := fun x y nn s =>
  ⟨⟨_, rfl, by simp, s.skipIf_unchanged _⟩, ⟨_, rfl, by simp, s.skipIf_unchanged _⟩,
    ⟨_, rfl, by simp, s.skipIf_unchanged _⟩, ⟨_, rfl, by simp, s.skipIf_unchanged _⟩⟩

/-! ### The key skips (R87, R88, R94 to R97) -/

/-- Settles O21: the bit is `KeyPressed` of register x; both meanings skip on it, one negated, and take the next sample. -/
theorem keySkipsFollowTheSampledLine : Obligations.KeySkipsFollowTheSampledLine := by
  intro x s
  have hdraws (b : Bool) : (s.skipIf b).keyDrawn.keyDraws = s.keyDraws + 1 := by simp
  have hframe (b : Bool) : UnchangedBut [] [.pc, .keyDraws] s (s.skipIf b).keyDrawn :=
    (s.skipIf_unchanged b).trans (State.keyDrawn_unchanged _)
  exact ⟨s.keyPressed (s.reg x), s.keyPressed_of_keypad _, s.keyPressed_of_gt _, s.keyPressed_of_noKeypad _,
    ⟨_, rfl, s.skipIf_pc _, hdraws _, hframe _⟩, ⟨_, rfl, s.skipIf_not_pc _, hdraws _, hframe _⟩⟩

end Sys2Proof.Machine
end

section
/-! PROOF. Register loads, the ALU and the random byte (42_load_and_alu.md R99 to R119): the values of the flags, what the
two register writes of a flag instruction leave with and without register 15 as the destination, and what each meaning
stores. -/

namespace Sys2Proof.Machine

/-! ### The flags and the difference as numbers -/

section

variable (a b : Byte)

/-- The carry is 1 exactly when the exact sum passes 255 (R109, R110). -/
theorem carryFlag_eq : carryFlag a b = if a.toNat + b.toNat > 255 then 1 else 0 := by
  simp only [carryFlag, flagOf, decide_eq_true_eq]

/-- A negative exact difference of unsigned operands means that the first is the smaller (R113, D15). -/
theorem borrowFlag_eq : borrowFlag a b = if a.toNat < b.toNat then 1 else 0 := by
  simp only [borrowFlag, flagOf, decide_eq_true_eq, sub_neg, Nat.cast_lt]

/-- The byte difference is the exact difference modulo 256 (R100). -/
theorem sub_toNat_cast : ((a - b).toNat : Int) = ((a.toNat : Int) - b.toNat) % 256 := by
  have := a.isLt
  have := b.isLt
  rw [BitVec.toNat_sub]
  omega

/-- Doubling a byte is modulo 256 (R115). -/
theorem shiftLeft_one_toNat : (a <<< 1).toNat = 2 * a.toNat % 256 := by
  rw [BitVec.toNat_shiftLeft, Nat.shiftLeft_eq, Nat.mul_comm]

/-- Halving a byte drops its low bit (R114). -/
theorem ushiftRight_one_toNat : (a >>> 1).toNat = a.toNat / 2 := by
  rw [BitVec.toNat_ushiftRight, Nat.shiftRight_eq_div_pow]

/-- The low bit is shifted out to the right (R101, R119). -/
theorem lowBitFlag_ushiftRight_one : lowBitFlag a >>> 1 = 0 := by
  apply BitVec.eq_of_toNat_eq
  rw [ushiftRight_one_toNat, lowBitFlag_toNat]
  exact Nat.div_eq_of_lt (Nat.mod_lt _ Nat.two_pos)

/-- The top bit is shifted out to the left (R101, R119). -/
theorem highBitFlag_shiftLeft_one : highBitFlag a <<< 1 = 0 := by
  apply BitVec.eq_of_toNat_eq
  rw [shiftLeft_one_toNat, highBitFlag_toNat]
  split <;> rfl

end

/-! ### Two register writes in a row -/

section

variable (s : State) (v w : Byte)

/-- The second of two writes to one register replaces the first. -/
@[simp] theorem State.setReg_setReg_same (x : Reg) : (s.setReg x v).setReg x w = s.setReg x w := by
  simp only [State.setReg, Vector.set_set]

/-- A register keeps what was written to it through a write to another register. -/
theorem State.setReg_setReg_reg_of_ne {x z : Reg} (h : x ≠ z) : ((s.setReg x v).setReg z w).reg x = v :=
  (State.setReg_reg_of_ne _ w h).trans (s.setReg_reg_same x v)

end

/-! ### Instructions that write register x alone -/

/-- Settles O22: each of the three is one register write. -/
theorem loadsMovesAndImmediateAdd : Obligations.LoadsMovesAndImmediateAdd := by
  intro x y nn s
  have hsum : ((s.setReg x (s.reg x + nn)).reg x).toNat = ((s.reg x).toNat + nn.toNat) % 256 := by
    rw [State.setReg_reg_same, BitVec.toNat_add]
  exact ⟨⟨_, rfl, s.setReg_reg_same x _, s.setReg_unchanged x _⟩, ⟨_, rfl, hsum, s.setReg_unchanged x _⟩,
    ⟨_, rfl, s.setReg_reg_same x _, s.setReg_unchanged x _⟩⟩

/-- Settles O23: each of the three is one register write, of a bitwise result. -/
theorem logicOperationsLeaveTheFlagAlone : Obligations.LogicOperationsLeaveTheFlagAlone := by
  intro x y s
  refine ⟨⟨_, rfl, fun k _ => ?_, s.setReg_unchanged x _⟩, ⟨_, rfl, fun k _ => ?_, s.setReg_unchanged x _⟩,
    ⟨_, rfl, fun k _ => ?_, s.setReg_unchanged x _⟩⟩
  · rw [State.setReg_reg_same, BitVec.getLsbD_or]
  · rw [State.setReg_reg_same, BitVec.getLsbD_and]
  · rw [State.setReg_reg_same, BitVec.getLsbD_xor]

/-- Settles O28: one register write, of a masked byte, and the draw. -/
theorem randomByteIsMasked : Obligations.RandomByteIsMasked := by
  intro x nn s
  have hreg : ((s.setReg x (s.rndByte &&& nn)).rndDrawn).reg x = s.rndByte &&& nn := by
    rw [State.rndDrawn_reg, State.setReg_reg_same]
  refine ⟨_, rfl, hreg, fun k hk => ?_, rfl, (s.setReg_unchanged x _).trans (State.rndDrawn_unchanged _)⟩
  rw [hreg, BitVec.getLsbD_and, hk, Bool.and_false]

/-! ### The meaning of each flag instruction (R101) -/

section

variable (x y : Reg) (ign : Nibble) (s : State)

/-- The add writes the sum, then the carry (R109). -/
theorem exec_addReg : exec (.addReg x y) s =
    .next ((s.setReg x (s.reg x + s.reg y)).setReg 15 (carryFlag (s.reg x) (s.reg y))) := rfl

/-- The subtract writes the difference, then the borrow (R113). -/
theorem exec_subReg : exec (.subReg x y) s =
    .next ((s.setReg x (s.reg x - s.reg y)).setReg 15 (borrowFlag (s.reg x) (s.reg y))) := rfl

/-- The right shift writes the flag, then the shifted register (R114). -/
theorem exec_shr_of_ne {x : Reg} (h : x ≠ 15) :
    exec (.shr x ign) s = .next ((s.setReg 15 (lowBitFlag (s.reg x))).setReg x (s.reg x >>> 1)) :=
  congrArg _ (s.shiftReg_of_ne x _ _ h)

/-- The left shift writes the flag, then the shifted register (R115). -/
theorem exec_shl_of_ne {x : Reg} (h : x ≠ 15) :
    exec (.shl x ign) s = .next ((s.setReg 15 (highBitFlag (s.reg x))).setReg x (s.reg x <<< 1)) :=
  congrArg _ (s.shiftReg_of_ne x _ _ h)

/-- On register 15 the carry replaces the sum (R101). -/
theorem exec_addReg_flagReg :
    exec (.addReg 15 y) s = .next (s.setReg 15 (carryFlag (s.reg 15) (s.reg y))) := by
  rw [exec_addReg, State.setReg_setReg_same]

/-- On register 15 the borrow replaces the difference (R101). -/
theorem exec_subReg_flagReg :
    exec (.subReg 15 y) s = .next (s.setReg 15 (borrowFlag (s.reg 15) (s.reg y))) := by
  rw [exec_subReg, State.setReg_setReg_same]

/-- The right shift of register 15 shifts the flag it has just written (R101, D6). -/
theorem exec_shr_flagReg : exec (.shr 15 ign) s = .next (s.setReg 15 0) := by
  have hshift : s.shiftReg 15 (lowBitFlag (s.reg 15)) (· >>> 1) = s.setReg 15 0 := by
    rw [State.shiftReg_flagReg, State.setReg_setReg_same, lowBitFlag_ushiftRight_one]
  exact congrArg _ hshift

/-- The left shift of register 15 shifts the flag it has just written (R101, D6). -/
theorem exec_shl_flagReg : exec (.shl 15 ign) s = .next (s.setReg 15 0) := by
  have hshift : s.shiftReg 15 (highBitFlag (s.reg 15)) (· <<< 1) = s.setReg 15 0 := by
    rw [State.shiftReg_flagReg, State.setReg_setReg_same, highBitFlag_shiftLeft_one]
  exact congrArg _ hshift

end

/-! ### Flag instructions -/

/-- Settles O24: the sum stays in register x, which is not the flag register, and the carry is written last. -/
theorem addSetsCarryExactlyWhenTheSumPasses255 : Obligations.AddSetsCarryExactlyWhenTheSumPasses255 := by
  intro x y s hx
  refine ⟨_, exec_addReg x y s, ?_, ?_, exec_unchanged (exec_addReg x y s)⟩
  · rw [State.setReg_setReg_reg_of_ne _ _ _ hx, BitVec.toNat_add]
  · rw [State.setReg_reg_same, carryFlag_eq]

/-- Settles O25: the difference stays in register x, which is not the flag register, and the borrow is written last. -/
theorem subtractSetsBorrowExactlyWhenLess : Obligations.SubtractSetsBorrowExactlyWhenLess := by
  intro x y s hx
  refine ⟨_, exec_subReg x y s, ?_, ?_, exec_unchanged (exec_subReg x y s)⟩
  · rw [State.setReg_setReg_reg_of_ne _ _ _ hx, sub_toNat_cast]
  · rw [State.setReg_reg_same, borrowFlag_eq]

/-- Settles O26: the flag stays in register 15, which is not x, and the shifted register is written last. -/
theorem shiftsPutTheBitShiftedOutInTheFlag : Obligations.ShiftsPutTheBitShiftedOutInTheFlag := by
  intro x ign s hx
  have hshr := exec_shr_of_ne ign s hx
  have hshl := exec_shl_of_ne ign s hx
  refine ⟨⟨_, hshr, ?_, ?_, exec_unchanged hshr⟩, ⟨_, hshl, ?_, ?_, exec_unchanged hshl⟩⟩
  · rw [State.setReg_reg_same, ushiftRight_one_toNat]
  · rw [State.setReg_setReg_reg_of_ne _ _ _ hx.symm, lowBitFlag_toNat]
  · rw [State.setReg_reg_same, shiftLeft_one_toNat]
  · rw [State.setReg_setReg_reg_of_ne _ _ _ hx.symm, highBitFlag_toNat]

/-- Settles O27: on register 15 each of the four comes to one write, of the flag or of the flag shifted out. -/
theorem flagInstructionsOnRegister15 : Obligations.FlagInstructionsOnRegister15 := by
  intro y ign s
  refine ⟨⟨_, exec_addReg_flagReg y s, ?_, s.setReg_unchanged 15 _⟩,
    ⟨_, exec_subReg_flagReg y s, ?_, s.setReg_unchanged 15 _⟩,
    ⟨_, exec_shr_flagReg ign s, s.setReg_reg_same 15 0, s.setReg_unchanged 15 0⟩,
    ⟨_, exec_shl_flagReg ign s, s.setReg_reg_same 15 0, s.setReg_unchanged 15 0⟩⟩
  · rw [State.setReg_reg_same, carryFlag_eq]
  · rw [State.setReg_reg_same, borrowFlag_eq]

end Sys2Proof.Machine
end

section
/-! PROOF. The index register, loads and stores (43_index_and_memory.md R120 to R132): what each meaning does when its access
is in range and when it is not, which bytes stand in memory after a store at I, and that a load gives stored registers
back. -/

namespace Sys2Proof.Machine

open Sys2Proof.Config

/-! ### The meanings that load I -/

section

variable (s : State)

theorem exec_ldI (nnn : Addr12) : exec (.ldI nnn) s = .next (s.setIndex (zext12 nnn)) := rfl

theorem exec_addI (x : Reg) : exec (.addI x) s = .next (s.setIndex (s.index + zext8 (s.reg x))) := rfl

theorem exec_ldF (digit : Nibble) : exec (.ldF digit) s = .next (s.setIndex (BitVec.ofNat 16 (fontStride * digit.toNat))) :=
  rfl

end

/-- The address of a glyph is exact: it stays far below 65536 (R127). -/
theorem glyphAddr_toNat (digit : Nibble) : (BitVec.ofNat 16 (fontStride * digit.toNat)).toNat = 5 * digit.toNat := by
  have hfits : 5 * digit.toNat < 65536 := by
    have := digit.isLt
    omega
  exact Nat.mod_eq_of_lt hfits

/-- Settles O29: both meanings are one write of I, of a value that fits. -/
theorem indexLoads : Obligations.IndexLoads := fun nnn digit s =>
  ⟨⟨_, exec_ldI s nnn, zext12_toNat nnn, s.setIndex_unchanged _⟩,
    ⟨_, exec_ldF s digit, glyphAddr_toNat digit, s.setIndex_unchanged _⟩⟩

/-- Settles O30: the meaning is one write of I, of a 16-bit sum. -/
theorem addToIndexWrapsAt16Bits : Obligations.AddToIndexWrapsAt16Bits := by
  intro x s
  refine ⟨_, exec_addI s x, ?_, s.setIndex_unchanged _⟩
  rw [State.setIndex_index, BitVec.toNat_add, zext8_toNat]

/-! ### The accessing meanings on the two sides of the range check (R125) -/

section

variable (x y : Reg) {s : State}

theorem exec_ldB_of_inRange (h : s.index.toNat + 2 ≤ 4095) :
    exec (.ldB x) s = .next (s.storeAtIndex (decimalDigits (s.reg x))) := congrArg _ (if_pos ((s.inRange_iff 2).2 h))

theorem exec_stRegs_of_inRange (h : s.index.toNat + x.val ≤ 4095) :
    exec (.stRegs x) s = .next (s.storeAtIndex ((regsUpTo x).map s.reg)) := congrArg _ (if_pos ((s.inRange_iff x.val).2 h))

theorem exec_ldRegs_of_inRange (h : s.index.toNat + x.val ≤ 4095) :
    exec (.ldRegs x) s = .next (s.loadRegs (regsUpTo x)) := congrArg _ (if_pos ((s.inRange_iff x.val).2 h))

theorem exec_ldB_of_outOfRange (h : 4095 < s.index.toNat + 2) : exec (.ldB x) s = .next (s.raiseData (.ldB x)) :=
  congrArg _ (if_neg (mt (s.inRange_iff 2).1 (Nat.not_le.2 h)))

theorem exec_stRegs_of_outOfRange (h : 4095 < s.index.toNat + x.val) :
    exec (.stRegs x) s = .next (s.raiseData (.stRegs x)) :=
  congrArg _ (if_neg (mt (s.inRange_iff x.val).1 (Nat.not_le.2 h)))

theorem exec_ldRegs_of_outOfRange (h : 4095 < s.index.toNat + x.val) :
    exec (.ldRegs x) s = .next (s.raiseData (.ldRegs x)) :=
  congrArg _ (if_neg (mt (s.inRange_iff x.val).1 (Nat.not_le.2 h)))

/-- A draw of m + 1 rows checks the offsets 0 to m (R135, R142). -/
theorem exec_drw_of_outOfRange {n : Nibble} {m : Nat} (hn : n.toNat = m + 1) (h : 4095 < s.index.toNat + m) :
    exec (.drw x y n) s = .next (s.raiseData (.drw x y n)) := by
  have hrange : s.inRange (n.toNat - 1) = false := by rwa [hn, Nat.add_sub_cancel, s.inRange_eq_false]
  exact congrArg _ (if_pos ⟨hn ▸ m.succ_pos, hrange⟩)

end

/-! ### An access out of range -/

/-- The recorded address is the smallest one above 4095 among I to I + m (R131). -/
theorem State.badAddr_least (s : State) {m : Nat} (h : 4095 < s.index.toNat + m) :
    4095 < s.badAddr.toNat ∧ (∃ k ≤ m, s.badAddr.toNat = s.index.toNat + k) ∧
      ∀ k, 4095 < s.index.toNat + k → s.badAddr.toNat ≤ s.index.toNat + k := by
  rw [s.badAddr_toNat]
  exact ⟨by omega, ⟨max s.index.toNat 4096 - s.index.toNat, by omega, by omega⟩, fun k hk => by omega⟩

/-- Settles O34: each of the four raises the same fault, from the state in which it began. -/
theorem accessAbove4095HaltsWithoutEffect : Obligations.AccessAbove4095HaltsWithoutEffect := by
  intro i m s hi h
  have hexec : exec i s = .next (s.raiseData i) := by
    obtain ⟨x, rfl, rfl⟩ | ⟨x, rfl, rfl⟩ | ⟨x, rfl, rfl⟩ | ⟨x, y, n, rfl, hn⟩ := hi
    · exact exec_ldB_of_outOfRange x h
    · exact exec_stRegs_of_outOfRange x h
    · exact exec_ldRegs_of_outOfRange x h
    · exact exec_drw_of_outOfRange x y hn h
  exact ⟨_, hexec, rfl, s.raise_unchanged _ _ _ _, rfl, s.badAddr_least h⟩

/-! ### Stores in range -/

/-- The byte at place k of a store at I stands at I + k afterwards (R38). -/
theorem State.storeAtIndex_byte_of_getElem? (s : State) (hm : s.mem.wf s.params) {vs : List Byte} {k : Nat} {v : Byte}
    (h : vs[k]? = some v) : (s.storeAtIndex vs).byte (s.index.toNat + k) = v := by
  obtain ⟨hk, rfl⟩ := List.getElem?_eq_some_iff.1 h
  simp [s.storeAtIndex_byte vs hm, hk]

/-- A store of m + 1 bytes at I leaves every byte outside I to I + m. -/
theorem State.storeAtIndex_byte_of_not_between (s : State) {vs : List Byte} {m a : Nat} (hlen : vs.length = m + 1)
    (ha : a < s.index.toNat ∨ s.index.toNat + m < a) : (s.storeAtIndex vs).byte a = s.byte a :=
  s.storeAtIndex_byte_of_outside vs a (by rw [hlen]; exact ha)

/-- The bytes at I, I + 1, I + 2 after a store of decimal digits, as numbers (R128). -/
theorem State.storeAtIndex_decimalDigits_toNat (s : State) (hm : s.mem.wf s.params) (v : Byte) :
    ((s.storeAtIndex (decimalDigits v)).byte s.index.toNat).toNat = v.toNat / 100 ∧
    ((s.storeAtIndex (decimalDigits v)).byte (s.index.toNat + 1)).toNat = v.toNat / 10 % 10 ∧
    ((s.storeAtIndex (decimalDigits v)).byte (s.index.toNat + 2)).toNat = v.toNat % 10 := by
  have hplace {k d : Nat} (hd : d < 256) (hk : (decimalDigits v)[k]? = some (BitVec.ofNat 8 d)) :
      ((s.storeAtIndex (decimalDigits v)).byte (s.index.toNat + k)).toNat = d := by
    rw [s.storeAtIndex_byte_of_getElem? hm hk]
    exact Nat.mod_eq_of_lt hd
  have := v.isLt
  exact ⟨hplace (k := 0) (by omega) rfl, hplace (by omega) rfl, hplace (by omega) rfl⟩

/-- Settles O31: the three stored bytes are the decimal digits of register x. -/
theorem decimalDigitsAreStored : Obligations.DecimalDigitsAreStored := by
  intro x s hm hr
  obtain ⟨hhundreds, htens, hones⟩ := s.storeAtIndex_decimalDigits_toNat hm (s.reg x)
  exact ⟨_, exec_ldB_of_inRange x hr, by omega, by omega, by omega,
    fun a ha => s.storeAtIndex_byte_of_not_between rfl ha, s.storeAtIndex_unchanged _⟩

/-- Settles O32: register k stands at place k of the stored bytes. -/
theorem registersAreStored : Obligations.RegistersAreStored := by
  intro x s hm hr
  refine ⟨_, exec_stRegs_of_inRange x hr, fun k hk => s.storeAtIndex_byte_of_getElem? hm ?_,
    fun a ha => s.storeAtIndex_byte_of_not_between (by simp) ha, s.storeAtIndex_unchanged _⟩
  rw [List.getElem?_map, regsUpTo_getElem? x k hk, Option.map_some]

/-! ### Loads in range -/

/-- Register k up to X is loaded from I + k, and the others stay (R130). -/
theorem State.loadRegs_regsUpTo_reg (s : State) (x k : Reg) :
    (s.loadRegs (regsUpTo x)).reg k = if k ≤ x then s.byte (s.index.toNat + k.val) else s.reg k := by
  obtain ⟨_, -, hreg⟩ := s.loadRegs_eq (regsUpTo x)
  simp only [hreg, mem_regsUpTo, State.dataAddr]

/-- Settles O33: the meaning loads the listed registers, each from its own address. -/
theorem registersAreLoaded : Obligations.RegistersAreLoaded := fun x s hr =>
  ⟨_, exec_ldRegs_of_inRange x hr, s.loadRegs_regsUpTo_reg x, s.loadRegs_unchanged _⟩

/-- Settles O35: the store leaves I, and the load reads the bytes the store wrote. -/
theorem storeThenLoadRestoresRegisters : Obligations.StoreThenLoadRestoresRegisters := by
  intro x s t u hm hr ht hmem hparams hindex
  obtain ⟨t', ht', hstored, -, -, hsame⟩ := registersAreStored x s hm hr
  obtain rfl : t' = t := Host.Outcome.next.inj (ht'.symm.trans ht)
  have hindex : u.index = s.index := hindex.trans (hsame .index (by decide))
  obtain ⟨v, hv, hloaded, -⟩ := registersAreLoaded x u (by rwa [hindex])
  refine ⟨v, hv, fun k => ?_⟩
  rw [hloaded k]
  split
  · rename_i hk
    rw [hindex, State.byte, hmem, hparams]
    exact hstored k hk
  · rfl

/-! ### Words the spec writes out -/

/-- Settles O5: each word is given to the decoder. -/
theorem wordsWrittenOutInTheSpecDecode : Obligations.WordsWrittenOutInTheSpecDecode := by
  unfold Obligations.WordsWrittenOutInTheSpecDecode
  decide

end Sys2Proof.Machine
end

section
/-! PROOF. The display (44_display.md R133 to R142): a clear, a draw in range, what a second draw of the same sprite finds,
and the read-out. -/

namespace Sys2Proof.Machine

open Sys2Proof.Config

/-! ### The clear -/

theorem exec_cls (s : State) : exec .cls s = .next (s.setDisp (Vector.replicate dispH 0)) := rfl

/-- Every pixel of a zero buffer is 0. -/
theorem pixelOf_replicate_zero (row col : Nat) : pixelOf (Vector.replicate dispH 0) row col = false := by
  simp [pixelOf]

/-- Settles O37: the meaning replaces the display by a zero buffer. -/
theorem clearDisplayZeroesEveryPixel : Obligations.ClearDisplayZeroesEveryPixel := fun s =>
  ⟨_, exec_cls s, pixelOf_replicate_zero, s.setDisp_unchanged _⟩

/-! ### A draw in range -/

/-- The state that a draw in range ends in: the drawn display, and the collision in register 15 (R135). -/
def State.afterDraw (s : State) (x y : Reg) (n : Nibble) : State :=
  (s.setDisp (s.drawn x y n).1).setReg flagReg (flagOf (s.drawn x y n).2)

/-- A draw whose last row is read within memory, or that reads none, passes the range check (R135, R142). -/
theorem exec_drw_of_inRange (x y : Reg) {n : Nibble} {s : State}
    (h : 0 < n.toNat → s.index.toNat + n.toNat - 1 ≤ 4095) :
    exec (.drw x y n) s = .next (s.afterDraw x y n) := by
  refine congrArg _ (if_neg ?_)
  rintro ⟨hn, hrange⟩
  have hlast := h hn
  rw [s.inRange_eq_false] at hrange
  omega

/-- A set flag is 1. -/
theorem flagOf_eq_one (b : Bool) : flagOf b = 1 ↔ b = true := by cases b <;> decide

/-- A clear flag is 0. -/
theorem flagOf_eq_zero (b : Bool) : flagOf b = 0 ↔ b = false := by cases b <;> decide

/-- A 1 bit of a sprite lands inside the display, since its row is taken modulo 32 (R136). -/
theorem State.spriteSets.row_lt {s : State} {x y : Reg} {n : Nibble} {row col : Nat} (h : s.spriteSets x y n row col) :
    row < 32 := by
  obtain ⟨r, -, c, -, rfl, -, -⟩ := h
  exact Nat.mod_lt _ (by decide)

/-- Some 1 bit of the sprite lands on a pixel that is set (R135). -/
def State.collides (s : State) (x y : Reg) (n : Nibble) : Prop :=
  ∃ row < 32, ∃ col < 64, s.spriteSets x y n row col ∧ s.pixel row col = true

section

variable (s : State) (x y : Reg) (n : Nibble)

theorem State.afterDraw_unchanged : UnchangedBut [15] [.disp] s (s.afterDraw x y n) :=
  (s.setDisp_unchanged _).trans (State.setReg_unchanged _ _ _)

/-- A covered pixel is inverted (R135). -/
theorem State.afterDraw_pixel_of_set {row col : Nat} (hcol : col < 64) (h : s.spriteSets x y n row col) :
    (s.afterDraw x y n).pixel row col = !s.pixel row col :=
  (s.inverted_drawn x y n).on row col hcol h

/-- Every other pixel stays (R136). -/
theorem State.afterDraw_pixel_of_not_set {row col : Nat} (hcol : col < 64) (h : ¬ s.spriteSets x y n row col) :
    (s.afterDraw x y n).pixel row col = s.pixel row col :=
  (s.inverted_drawn x y n).off row col hcol h

/-- The draw loops record a collision exactly when there is one. -/
theorem State.drawn_flag_iff : (s.drawn x y n).2 = true ↔ s.collides x y n := by
  rw [(s.inverted_drawn x y n).flag]
  constructor
  · rintro (hstart | ⟨row, col, hcol, hset, hpixel⟩)
    · exact absurd hstart Bool.false_ne_true
    · exact ⟨row, hset.row_lt, col, hcol, hset, hpixel⟩
  · rintro ⟨row, -, col, hcol, hset, hpixel⟩
    exact .inr ⟨row, col, hcol, hset, hpixel⟩

/-- Register 15 is 1 after a draw with a collision, and after no other. -/
theorem State.afterDraw_flag_eq_one_iff : (s.afterDraw x y n).reg 15 = 1 ↔ s.collides x y n := by
  rw [State.afterDraw, State.setReg_reg_same, flagOf_eq_one, s.drawn_flag_iff]

/-- Register 15 is 0 after a draw without a collision, and after no other. -/
theorem State.afterDraw_flag_eq_zero_iff : (s.afterDraw x y n).reg 15 = 0 ↔ ¬ s.collides x y n := by
  rw [State.afterDraw, State.setReg_reg_same, flagOf_eq_zero, ← Bool.not_eq_true, s.drawn_flag_iff]

end

/-- Settles O38: the draw loops invert the covered pixels, and the collision they record is written last. -/
theorem drawInvertsCoveredPixelsAndReportsCollision : Obligations.DrawInvertsCoveredPixelsAndReportsCollision :=
  fun x y n s hrange =>
    ⟨_, exec_drw_of_inRange x y hrange,
      fun _ _ _ hcol => ⟨s.afterDraw_pixel_of_set x y n hcol, s.afterDraw_pixel_of_not_set x y n hcol⟩,
      (s.afterDraw_flag_eq_one_iff x y n).2, (s.afterDraw_flag_eq_zero_iff x y n).2, s.afterDraw_unchanged x y n⟩

/-! ### A draw of zero rows -/

/-- A draw of zero rows comes to one register write, whatever I holds (R142, D14). -/
theorem exec_drw_zero (x y : Reg) (s : State) : exec (.drw x y 0) s = .next (s.setReg 15 0) :=
  exec_drw_of_inRange x y fun h => absurd h (by decide)

/-- Settles O40: the meaning clears register 15 and does nothing else. -/
theorem zeroRowDrawOnlyClearsTheFlag : Obligations.ZeroRowDrawOnlyClearsTheFlag := fun x y s =>
  ⟨_, exec_drw_zero x y s, s.setReg_reg_same 15 0, s.setReg_unchanged 15 0⟩

/-! ### The same draw twice (R139) -/

/-- The pixels a sprite covers are determined by the coordinate registers, I and memory, none of which a draw with
coordinates outside register 15 writes. -/
theorem UnchangedBut.spriteSets_iff {s t : State} (h : UnchangedBut [15] [.disp] s t) {x y : Reg} (hx : x ≠ 15)
    (hy : y ≠ 15) (n : Nibble) (row col : Nat) : t.spriteSets x y n row col ↔ s.spriteSets x y n row col := by
  obtain ⟨hreg, hpart⟩ := h
  have hindex : t.index = s.index := hpart .index (by decide)
  have hbyte : ∀ a, t.byte a = s.byte a := hpart .mem (by decide)
  simp only [State.spriteSets, hreg x (by simpa using hx), hreg y (by simpa using hy), hindex, hbyte]

/-- A byte is not zero exactly when one of its eight bits, counted from the most significant, is 1. -/
theorem byte_ne_zero_iff (b : Byte) : b ≠ 0 ↔ ∃ c < 8, b.getLsbD (7 - c) = true := by
  constructor
  · intro hb
    obtain ⟨i, hi, hbit⟩ : ∃ i, i < 8 ∧ b.getLsbD i = true := by
      by_contra hnone
      exact hb (BitVec.eq_of_getLsbD_eq fun i hi => by simpa using fun hbit => hnone ⟨i, hi, hbit⟩)
    exact ⟨7 - i, by omega, by rwa [show 7 - (7 - i) = i by omega]⟩
  · rintro ⟨c, -, hbit⟩ rfl
    simp at hbit

/-- A sprite covers some pixel exactly when one of its bytes is not zero: its columns and rows wrap, so no 1 bit is
lost (R136). -/
theorem State.exists_spriteSets_iff (s : State) (x y : Reg) (n : Nibble) :
    (∃ row < 32, ∃ col < 64, s.spriteSets x y n row col) ↔ ∃ r < n.toNat, s.byte (s.index.toNat + r) ≠ 0 := by
  constructor
  · rintro ⟨_, -, _, -, r, hr, c, hc, -, -, hbit⟩
    exact ⟨r, hr, (byte_ne_zero_iff _).2 ⟨c, hc, hbit⟩⟩
  · rintro ⟨r, hr, hbyte⟩
    obtain ⟨c, hc, hbit⟩ := (byte_ne_zero_iff _).1 hbyte
    exact ⟨_, Nat.mod_lt _ (by decide), _, Nat.mod_lt _ (by decide), r, hr, c, hc, rfl, rfl, hbit⟩

section

variable (s : State) {x y : Reg} (hx : x ≠ 15) (hy : y ≠ 15) (n : Nibble)
include hx hy

/-- The second draw covers the pixels that the first covered. -/
theorem State.afterDraw_spriteSets_iff (row col : Nat) :
    (s.afterDraw x y n).spriteSets x y n row col ↔ s.spriteSets x y n row col :=
  (s.afterDraw_unchanged x y n).spriteSets_iff hx hy n row col

/-- A pixel that two draws invert is inverted back. -/
theorem State.afterDraw_afterDraw_pixel {row col : Nat} (hcol : col < 64) :
    ((s.afterDraw x y n).afterDraw x y n).pixel row col = s.pixel row col := by
  have hsame := s.afterDraw_spriteSets_iff hx hy n row col
  by_cases hset : s.spriteSets x y n row col
  · rw [State.afterDraw_pixel_of_set _ x y n hcol (hsame.2 hset), s.afterDraw_pixel_of_set x y n hcol hset, Bool.not_not]
  · rw [State.afterDraw_pixel_of_not_set _ x y n hcol (mt hsame.1 hset), s.afterDraw_pixel_of_not_set x y n hcol hset]

/-- From a blank display the first draw sets every pixel that the second covers, so the second collides exactly when the
sprite covers a pixel. -/
theorem State.afterDraw_collides_iff_of_blank (hblank : ∀ row < 32, ∀ col < 64, s.pixel row col = false) :
    (s.afterDraw x y n).collides x y n ↔ ∃ row < 32, ∃ col < 64, s.spriteSets x y n row col := by
  constructor
  · rintro ⟨row, hrow, col, hcol, hset, -⟩
    exact ⟨row, hrow, col, hcol, (s.afterDraw_spriteSets_iff hx hy n row col).1 hset⟩
  · rintro ⟨row, hrow, col, hcol, hset⟩
    refine ⟨row, hrow, col, hcol, (s.afterDraw_spriteSets_iff hx hy n row col).2 hset, ?_⟩
    rw [s.afterDraw_pixel_of_set x y n hcol hset, hblank row hrow col hcol, Bool.not_false]

end

/-- Settles O39: the second draw covers the same pixels as the first; on a blank display they are then all set. -/
theorem drawingTwiceRestoresTheDisplay : Obligations.DrawingTwiceRestoresTheDisplay := by
  intro x y n s t u hx hy hrange ht hu
  have hfirst : 0 < n.toNat → s.index.toNat + n.toNat - 1 ≤ 4095 := by omega
  obtain rfl : s.afterDraw x y n = t := Host.Outcome.next.inj ((exec_drw_of_inRange x y hfirst).symm.trans ht)
  -- the first draw leaves I, so the second passes the same range check
  obtain rfl : (s.afterDraw x y n).afterDraw x y n = u :=
    Host.Outcome.next.inj ((exec_drw_of_inRange (s := s.afterDraw x y n) x y hfirst).symm.trans hu)
  refine ⟨fun _ _ _ hcol => s.afterDraw_afterDraw_pixel hx hy n hcol, fun hblank => ?_⟩
  rw [State.afterDraw_flag_eq_one_iff, s.afterDraw_collides_iff_of_blank hx hy n hblank, s.exists_spriteSets_iff]

/-! ### The read-out (R140) -/

/-- A pixel as one bit of the read-out. -/
theorem ofBool_eq_ite (b : Bool) : BitVec.ofBool b = if b then 1 else 0 := by cases b <;> rfl

/-- Settles O41: index row * 64 + col has quotient row and remainder col by 64. -/
theorem readOutIsTheDisplayRowMajor : Obligations.ReadOutIsTheDisplayRowMajor := by
  intro s
  refine ⟨(List.length_map _).trans List.length_range, fun row hrow col hcol => ?_⟩
  have hindex : row * 64 + col < dispH * dispW := show row * 64 + col < 2048 by omega
  have hquot : (row * 64 + col) / 64 = row := by omega
  have hrem : (row * 64 + col) % 64 = col := by omega
  rw [State.dispOut, List.getElem?_map, List.getElem?_range hindex, Option.map_some, hquot, hrem, ofBool_eq_ite]

end Sys2Proof.Machine
end

section
/-! PROOF. The timers (45_timers.md R143 to R149): the tick, the moves between the timers and the registers, which completed
cycles tick, and that a timer rises by the one instruction that sets it alone. -/

namespace Sys2Proof.Machine

/-! ### The tick (R146) -/

/-- A tick is a write of each timer. -/
theorem State.timerTick_unchanged (s : State) : UnchangedBut [] [.dt, .st] s s.timerTick :=
  (s.setDt_unchanged _).trans (State.setSt_unchanged _ _)

/-- Settles O8: the tick replaces each timer by its ticked value. -/
theorem tickDecrementsNonzeroTimers : Obligations.TickDecrementsNonzeroTimers := fun s =>
  ⟨ticked_toNat s.dt, ticked_toNat s.st, s.timerTick_unchanged⟩

/-! ### The timer moves (R144, R145, R147) -/

section

variable (x : Reg) (s : State)

theorem exec_ldVxDt : exec (.ldVxDt x) s = .next (s.setReg x s.dt) := rfl

theorem exec_ldDtVx : exec (.ldDtVx x) s = .next (s.setDt (s.reg x)) := rfl

theorem exec_ldStVx : exec (.ldStVx x) s = .next (s.setSt (s.reg x)) := rfl

end

/-- Settles O42: each of the three is one write, of a register or of a timer. -/
theorem timerRegisterMoves : Obligations.TimerRegisterMoves := fun x s =>
  ⟨⟨_, exec_ldVxDt x s, s.setReg_reg_same x _, s.setReg_unchanged x _⟩,
    ⟨_, exec_ldDtVx x s, s.setDt_dt _, s.setDt_unchanged _⟩,
    ⟨_, exec_ldStVx x s, s.setSt_st _, s.setSt_unchanged _⟩⟩

/-! ### Which completed cycles tick (R62, R148) -/

theorem State.setCyc_unchanged (s : State) (n : Nat) : UnchangedBut [] [.cyc] s (s.setCyc n) :=
  ⟨fun _ _ => rfl, fun p hp => by cases p <;> simp_all [Part.same]⟩

/-- Settles O9: a completed cycle ends with the end of cycle, and the instruction has left the count and the divider. -/
theorem timersTickEveryDividerthCycle : Obligations.TimersTickEveryDividerthCycle := by
  intro s i t hrun hpc hdec hexec htrun
  obtain ⟨hcyc, hparams⟩ : t.cyc = s.cyc ∧ t.params = s.params := by simpa using exec_cyc_params hexec
  have hstep : step s = .next t.endCycle := by
    rw [step_of_decodes hrun hpc hdec hexec, t.finish_of_running htrun]
  refine ⟨t.endCycle, hstep, ?_⟩
  rw [← hcyc, ← hparams]
  constructor
  · intro htick
    obtain ⟨hdt, hst, hframe⟩ := tickDecrementsNonzeroTimers t
    rw [t.endCycle_tick htick]
    exact ⟨hdt, hst, rfl, hframe.trans (State.setCyc_unchanged _ 0)⟩
  · intro hnoTick
    rw [t.endCycle_noTick hnoTick]
    exact ⟨rfl, t.setCyc_unchanged _⟩

/-! ### Which instruction sets a timer (R21, R22) -/

theorem dt_mem_partsWritten_iff (i : Instr) : .dt ∈ partsWritten i ↔ ∃ x, i = .ldDtVx x := by
  cases i <;> simp [partsWritten]

theorem st_mem_partsWritten_iff (i : Instr) : .st ∈ partsWritten i ↔ ∃ x, i = .ldStVx x := by
  cases i <;> simp [partsWritten]

section

variable {i : Instr} {s t : State} (h : exec i s = .next t)
include h

/-- The execute phase leaves DT, or is `Fx15` (R21). -/
theorem exec_dt : t.dt = s.dt ∨ ∃ x, i = .ldDtVx x ∧ t.dt = s.reg x := by
  by_cases hi : .dt ∈ partsWritten i
  · obtain ⟨x, rfl⟩ := (dt_mem_partsWritten_iff i).1 hi
    cases h
    exact .inr ⟨x, rfl, rfl⟩
  · exact .inl ((exec_unchanged h).2 .dt hi)

/-- The execute phase leaves ST, or is `Fx18` (R22). -/
theorem exec_st : t.st = s.st ∨ ∃ x, i = .ldStVx x ∧ t.st = s.reg x := by
  by_cases hi : .st ∈ partsWritten i
  · obtain ⟨x, rfl⟩ := (st_mem_partsWritten_iff i).1 hi
    cases h
    exact .inr ⟨x, rfl, rfl⟩
  · exact .inl ((exec_unchanged h).2 .st hi)

end

/-! ### Between sets a timer only falls (R149) -/

/-- The end of a cycle raises no timer. -/
theorem State.endCycle_timers_le (s : State) :
    s.endCycle.dt.toNat ≤ s.dt.toNat ∧ s.endCycle.st.toNat ≤ s.st.toNat := by
  by_cases htick : s.cyc + 1 = s.params.timerDivider
  · obtain ⟨hdt, hst, -⟩ := tickDecrementsNonzeroTimers s
    rw [s.endCycle_tick htick]
    exact ⟨hdt.trans_le (Nat.sub_le _ _), hst.trans_le (Nat.sub_le _ _)⟩
  · rw [s.endCycle_noTick htick]
    exact ⟨le_rfl, le_rfl⟩

/-- Nor does the rest of a cycle, whether the execute phase halted or not. -/
theorem State.finish_timers_le (s : State) : s.finish.dt.toNat ≤ s.dt.toNat ∧ s.finish.st.toNat ≤ s.st.toNat := by
  unfold State.finish
  split
  · exact ⟨le_rfl, le_rfl⟩
  · exact s.endCycle_timers_le

/-- Settles O10: a step that executes no instruction leaves the timers; else the instruction leaves a timer or sets it to its
register, and the rest of the cycle does not raise it. -/
theorem timersOnlyFallBetweenSets : Obligations.TimersOnlyFallBetweenSets := by
  intro s t hrun hstep
  obtain ⟨hhalt, -⟩ | ⟨-, -, rfl⟩ | ⟨-, -, -, rfl⟩ | ⟨-, -, i, u, hdec, hu, rfl⟩ := step_cases hstep
  · exact absurd (hrun.symm.trans hhalt) (by decide)
  · exact ⟨.inl le_rfl, .inl le_rfl⟩
  · exact ⟨.inl le_rfl, .inl le_rfl⟩
  · obtain ⟨hdt, hst⟩ := u.finish_timers_le
    constructor
    · obtain hkeep | ⟨x, rfl, hset⟩ := exec_dt hu
      · exact .inl (hkeep ▸ hdt)
      · exact .inr ⟨x, hdec, hset ▸ hdt⟩
    · obtain hkeep | ⟨x, rfl, hset⟩ := exec_st hu
      · exact .inl (hkeep ▸ hst)
      · exact .inr ⟨x, hdec, hset ▸ hst⟩

end Sys2Proof.Machine
end

section
/-! PROOF. The halt on a fault (60_exceptions.md R152 to R163): which step halts and with which record, that it changes
nothing but pc and the record, and that a halted core stays as it is. -/

namespace Sys2Proof.Machine

/-! ### A halted core (R163) -/

/-- Settles O11, by induction on the number of steps: each answers the state it began in. -/
theorem haltedCoreStaysFrozen : Obligations.HaltedCoreStaysFrozen := by
  intro s h k
  induction k with
  | zero => rfl
  | succ k ih => exact (run_succ k (step_of_halted s h)).trans ih

/-! ### The state a fault leaves (R152, R153) -/

/-- Code 5 is the code of a failed fetch alone (R153). -/
theorem Cause.code_eq_five_iff (c : Cause) : c.code = 5 ↔ c = .fetchOutOfRange := by cases c <;> decide

/-- The address a cause records: `max(I, 4096)` for DataOutOfRange, none for the others (R153). -/
def State.faultAddr (s : State) (c : Cause) : BitVec 17 := if c = .dataOutOfRange then s.badAddr else 0

theorem State.faultAddr_toNat (s : State) (c : Cause) :
    (s.faultAddr c).toNat = if c = .dataOutOfRange then max s.index.toNat 4096 else 0 := by
  rw [State.faultAddr, apply_ite BitVec.toNat, s.badAddr_toNat]
  rfl

/-- The state in which the cycle that begins in `s` halts with cause `c`: a failed fetch has no word and leaves pc, every
other fault finds pc advanced past the fetched word (R152, R158). -/
def State.haltedBy (s : State) (c : Cause) : State :=
  if c = .fetchOutOfRange then s.raise c 0 s.pc 0
  else (s.setPc (s.pc + 2)).raise c s.fetched s.pc (s.faultAddr c)

theorem State.haltedBy_of_ne (s : State) {c : Cause} (h : c ≠ .fetchOutOfRange) :
    s.haltedBy c = (s.setPc (s.pc + 2)).raise c s.fetched s.pc (s.faultAddr c) := if_neg h

section

variable (s : State) (c : Cause)

theorem State.haltedBy_fault : (s.haltedBy c).fault =
    ⟨true, c.code, if c = .fetchOutOfRange then 0 else s.fetched, s.pc, s.faultAddr c⟩ := by
  cases c <;> rfl

theorem State.haltedBy_pc : (s.haltedBy c).pc = if c = .fetchOutOfRange then s.pc else s.pc + 2 := by cases c <;> rfl

/-- A fault touches pc and the record alone (R152, R163). -/
theorem State.haltedBy_unchanged : UnchangedBut [] [.pc, .fault] s (s.haltedBy c) := by
  unfold State.haltedBy
  split
  · exact (s.raise_unchanged _ _ _ _).mono (by simp) (by simp)
  · exact (s.setPc_unchanged _).trans (State.raise_unchanged _ _ _ _ _)

end

/-! ### The execute phase against the table of causes (R153) -/

/-- The execute phase that ends in `u`, in the cycle that begins in `s`, does as the table of causes says: no cause and the
fault record kept, or a cause other than a failed fetch and the state it halts in. -/
def State.FollowsTable (s u : State) : Prop :=
  (s.causeOf = none ∧ u.fault = s.fault) ∨ ∃ c, c ≠ .fetchOutOfRange ∧ s.causeOf = some c ∧ u = s.haltedBy c

section

variable {s u : State} {i : Instr}

/-- A pc above 0x0FFE fails the fetch (R158). -/
theorem State.causeOf_of_pc_gt (hpc : s.pc.toNat > 0x0FFE) : s.causeOf = some .fetchOutOfRange := if_pos hpc

/-- A fetched word without a pattern is a decode error (R154). -/
theorem State.causeOf_of_rejects {r : Reject} (hpc : s.pc.toNat ≤ 0x0FFE) (hdec : decodeWord s.fetched = .error r) :
    s.causeOf = some .decodeError := by
  simp [State.causeOf, Nat.not_lt.2 hpc, hdec]

/-- The execute phase names the fetched word and the address it was fetched from (R58, R153). -/
theorem State.raiseIn_eq_haltedBy {c : Cause} (hdec : decodeWord s.fetched = .ok i)
    (hc : c ≠ .fetchOutOfRange) : (s.setPc (s.pc + 2)).raiseIn i c (s.faultAddr c) = s.haltedBy c := by
  rw [s.haltedBy_of_ne hc, State.raiseIn, (encode_of_decodeWord hdec).2, State.setPc_pc, BitVec.add_sub_cancel]

/-- An instruction with one condition for one fault follows the table when it raises that fault under the condition and
keeps the record otherwise. -/
theorem State.followsTable_of_condition {p : Prop} [Decidable p] {c : Cause} (hdec : decodeWord s.fetched = .ok i)
    (hu : exec i (s.setPc (s.pc + 2)) = .next u) (hcause : s.causeOf = if p then some c else none)
    (hc : c ≠ .fetchOutOfRange)
    (hraise : p → exec i (s.setPc (s.pc + 2)) = .next ((s.setPc (s.pc + 2)).raiseIn i c (s.faultAddr c)))
    (hkeep : ¬ p → ∃ v, exec i (s.setPc (s.pc + 2)) = .next v ∧ v.fault = s.fault) : s.FollowsTable u := by
  by_cases hp : p
  · cases hu.symm.trans (hraise hp)
    exact .inr ⟨c, hc, hcause.trans (if_pos hp), State.raiseIn_eq_haltedBy hdec hc⟩
  · obtain ⟨v, hv, hfault⟩ := hkeep hp
    cases hu.symm.trans hv
    exact .inl ⟨hcause.trans (if_neg hp), hfault⟩

/-- Every meaning follows the table: the native call always faults, six instructions fault under one condition each, and no
other writes the record. -/
theorem exec_followsTable (hpc : s.pc.toNat ≤ 0x0FFE) (hdec : decodeWord s.fetched = .ok i)
    (hu : exec i (s.setPc (s.pc + 2)) = .next u) : s.FollowsTable u := by
  have hfetch : ¬ 0x0FFE < s.pc.toNat := Nat.not_lt.2 hpc
  cases i with
  | sys nnn =>
    cases hu
    exact .inr ⟨.unsupportedNativeCall, nofun, by simp [State.causeOf, hfetch, hdec], State.raiseIn_eq_haltedBy hdec nofun⟩
  | call nnn =>
    refine State.followsTable_of_condition (p := s.sp.val = 24) (c := .stackOverflow) hdec hu ?_ nofun
      (fun hfull => exec_call_of_full nnn hfull) fun hroom => ⟨_, exec_call_of_room nnn ?_, rfl⟩
    · simp only [State.causeOf, hfetch, hdec, if_false]
    · exact Nat.lt_of_le_of_ne (Nat.le_of_lt_succ s.sp.isLt) hroom
  | ret =>
    refine State.followsTable_of_condition (p := s.sp.val = 0) (c := .stackUnderflow) hdec hu ?_ nofun
      (fun hempty => exec_ret_of_empty hempty) fun hsp => ⟨_, exec_ret_of_nonempty ?_, rfl⟩
    · simp only [State.causeOf, hfetch, hdec, if_false]
    · exact Nat.pos_of_ne_zero hsp
  | drw x y n =>
    refine State.followsTable_of_condition (p := 0 < n.toNat ∧ s.index.toNat + n.toNat - 1 > 4095) (c := .dataOutOfRange)
      hdec hu ?_ nofun (fun ⟨hn, hout⟩ => exec_drw_of_outOfRange x y (Nat.sub_add_cancel hn).symm ?_)
      fun hin => ⟨_, exec_drw_of_inRange x y fun hn => ?_, rfl⟩
    · simp only [State.causeOf, hfetch, hdec, if_false]
    · rwa [State.setPc_index, ← Nat.add_sub_assoc hn]
    · exact Nat.not_lt.1 fun hout => hin ⟨hn, hout⟩
  | ldB x =>
    refine State.followsTable_of_condition (p := s.index.toNat + 2 > 4095) (c := .dataOutOfRange) hdec hu ?_ nofun
      (fun hout => exec_ldB_of_outOfRange x hout) fun hin => ⟨_, exec_ldB_of_inRange x (Nat.not_lt.1 hin), rfl⟩
    simp only [State.causeOf, hfetch, hdec, if_false]
  | stRegs x =>
    refine State.followsTable_of_condition (p := s.index.toNat + x.val > 4095) (c := .dataOutOfRange) hdec hu ?_ nofun
      (fun hout => exec_stRegs_of_outOfRange x hout) fun hin => ⟨_, exec_stRegs_of_inRange x (Nat.not_lt.1 hin), rfl⟩
    simp only [State.causeOf, hfetch, hdec, if_false]
  | ldRegs x =>
    refine State.followsTable_of_condition (p := s.index.toNat + x.val > 4095) (c := .dataOutOfRange) hdec hu ?_ nofun
      (fun hout => exec_ldRegs_of_outOfRange x hout)
      fun hin => ⟨_, exec_ldRegs_of_inRange x (Nat.not_lt.1 hin), State.loadRegs_same _ _ .fault⟩
    simp only [State.causeOf, hfetch, hdec, if_false]
  | _ =>
    exact .inl ⟨by simp only [State.causeOf, hfetch, hdec, if_false], (exec_unchanged hu).2 .fault (by simp [partsWritten])⟩

end

/-! ### The step against the table of causes (R153, R162) -/

/-- A step of a running core finds no cause in the table and keeps the record, or finds one and halts with it; the cause is a
failed fetch exactly above 0x0FFE. -/
theorem step_followsTable {s t : State} (hrun : s.running) (hstep : step s = .next t) :
    (s.causeOf = none ∧ t.fault = s.fault) ∨
    ∃ c, (c = .fetchOutOfRange ↔ s.pc.toNat > 0x0FFE) ∧ s.causeOf = some c ∧ t = s.haltedBy c := by
  obtain ⟨hhalt, -⟩ | ⟨-, hpc, rfl⟩ | ⟨-, hpc, ⟨r, hdec⟩, rfl⟩ | ⟨-, hpc, i, u, hdec, hu, rfl⟩ := step_cases hstep
  · exact absurd (hrun.symm.trans hhalt) (by decide)
  · exact .inr ⟨.fetchOutOfRange, iff_of_true rfl hpc, State.causeOf_of_pc_gt hpc, rfl⟩
  · exact .inr ⟨.decodeError, iff_of_false nofun (Nat.not_lt.2 hpc), State.causeOf_of_rejects hpc hdec, rfl⟩
  · obtain ⟨hnone, hkeep⟩ | ⟨c, hc, hcause, rfl⟩ := exec_followsTable hpc hdec hu
    · exact .inl ⟨hnone, u.finish_fault.trans hkeep⟩
    · exact .inr ⟨c, iff_of_false hc (Nat.not_lt.2 hpc), hcause, State.finish_of_halted _ (by rw [s.haltedBy_fault])⟩

/-- Settles O12: a step that finds no cause keeps the record, and one that finds a cause fills it with that cause. -/
theorem stepHaltsExactlyForTheListedCauses : Obligations.StepHaltsExactlyForTheListedCauses := by
  intro s hrun
  obtain ⟨t, hstep⟩ := step_next s
  refine ⟨t, hstep, ?_⟩
  obtain ⟨hnone, hkeep⟩ | ⟨c, -, hcause, rfl⟩ := step_followsTable hrun hstep
  · exact ⟨fun _ => hkeep, fun d hd => absurd (hnone.symm.trans hd) nofun⟩
  · refine ⟨fun hnone => absurd (hcause.symm.trans hnone) nofun, fun d hd => ?_⟩
    cases hcause.symm.trans hd
    rw [s.haltedBy_fault]
    exact ⟨rfl, rfl, s.faultAddr_toNat c⟩

/-- Settles O13: a step that halts a running core did not keep the record, so it found a cause, and the state it halts in
shows the rest. -/
theorem haltingCycleChangesOnlyPcAndRecord : Obligations.HaltingCycleChangesOnlyPcAndRecord := by
  intro s t hrun hstep hhalt
  obtain ⟨-, hkeep⟩ | ⟨c, hfetch, -, rfl⟩ := step_followsTable hrun hstep
  · rw [hkeep] at hhalt
    exact absurd (hrun.symm.trans hhalt) (by decide)
  · rw [s.haltedBy_fault, s.haltedBy_pc]
    refine ⟨s.haltedBy_unchanged c, rfl, fun hpc => ?_, fun hpc => ?_⟩
    · have hc : c ≠ .fetchOutOfRange := mt hfetch.1 (Nat.not_lt.2 hpc)
      exact ⟨if_neg hc, if_neg hc, mt c.code_eq_five_iff.1 hc⟩
    · have hc : c = .fetchOutOfRange := hfetch.2 hpc
      exact ⟨if_pos hc, if_pos hc, c.code_eq_five_iff.2 hc⟩

end Sys2Proof.Machine
end

section
/-! PROOF. The reset state (70_reset_and_hazards.md R173, R176; 10_state.md R33): what each part of it reads as, and the first
cycle with no image loaded. -/

namespace Sys2Proof.Machine

open Sys2Proof.Config

/-! ### The reset table (R33, R173) -/

section

variable (p : Params)

theorem State.resetWith_reg (r : Reg) : (State.resetWith p).reg r = 0 := Vector.getElem_replicate r.isLt

theorem State.resetWith_stack (k : Fin stackDepth) : (State.resetWith p).stack[k] = 0 := Vector.getElem_replicate k.isLt

theorem State.resetWith_pixel (row col : Nat) : (State.resetWith p).pixel row col = false := pixelOf_replicate_zero row col

/-- No byte is listed after reset, so memory is the font (R33) ... -/
theorem State.resetWith_byte_font (k : Fin fontBytes) : (State.resetWith p).byte k.val = p.font[k] := dif_pos k.isLt

/-- ... and zero above it. -/
theorem State.resetWith_byte_above_font {a : Nat} (h : fontBytes ≤ a) : (State.resetWith p).byte a = 0 :=
  dif_neg (Nat.not_lt.2 h)

/-- The base offset lies above the font, so with no image the first word is zero (R176). -/
theorem State.resetWith_fetched : (State.resetWith p).fetched = 0 := by
  have hhi : (State.resetWith p).byte 0x200 = 0 := State.resetWith_byte_above_font p (a := 0x200) (by decide)
  have hlo : (State.resetWith p).byte 0x201 = 0 := State.resetWith_byte_above_font p (a := 0x201) (by decide)
  exact congrArg₂ wordOf hhi hlo

end

/-- Settles O43: the buffers are constant, memory lists no byte, and the other values stand in the reset state. -/
theorem resetValues : Obligations.ResetValues :=
  ⟨fun p => ⟨State.resetWith_reg p, rfl, rfl, rfl, rfl, rfl, State.resetWith_stack p, State.resetWith_pixel p, rfl,
    State.resetWith_byte_font p, fun _ => State.resetWith_byte_above_font p, rfl, rfl⟩, rfl⟩

/-! ### The first cycle (R176) -/

/-- A step of a running core at a native call halts (R62, R74). -/
theorem step_sys {s : State} {nnn : Addr12} (hrun : s.running) (hpc : s.pc.toNat ≤ 0x0FFE)
    (hdec : decodeWord s.fetched = .ok (.sys nnn)) : step s = .next (s.haltedBy .unsupportedNativeCall) := by
  have hexec : exec (.sys nnn) (s.setPc (s.pc + 2)) = .next (s.haltedBy .unsupportedNativeCall) :=
    congrArg Host.Outcome.next (State.raiseIn_eq_haltedBy (c := .unsupportedNativeCall) hdec nofun)
  rw [step_of_decodes hrun hpc hdec hexec, State.finish_of_halted _ (by rw [s.haltedBy_fault])]

/-- With no image the first cycle halts at the native call 0x0000, under any parameters. -/
theorem step_resetWith (p : Params) :
    step (State.resetWith p) = .next ((State.resetWith p).haltedBy .unsupportedNativeCall) :=
  have hpc : programBase ≤ 0x0FFE := by decide
  have hdec : decodeWord (State.resetWith p).fetched = .ok (.sys 0) := congrArg decodeWord (State.resetWith_fetched p)
  step_sys rfl hpc hdec

/-- Settles O14: the state in which the first cycle halts names the fetched word, which is zero, and has pc advanced. -/
theorem firstCycleWithoutImageHalts : Obligations.FirstCycleWithoutImageHalts := by
  refine ⟨_, step_resetWith Params.default, ?_, ?_⟩
  · rw [State.haltedBy_fault, State.resetWith_fetched]
    rfl
  · rw [State.haltedBy_pc]
    rfl

end Sys2Proof.Machine
end
